-- ==== Sys2Proof/Word.lean ====
section
/-! DEFINITION. The word types of the block (R4, R5). -/

namespace Sys2Proof

/-- A byte of either stream, and the width of an accumulator (R4, `ACC_WIDTH`). -/
abbrev Byte := BitVec 8

/-- The 4-bit register that holds a count of valid bits (R4, R11, R15). -/
abbrev Count := BitVec 4

/-- A command word (R52, `CMD_WIDTH`). -/
abbrev Cmd := BitVec 16

/-- The operand `wdata` and the result `rdata` (R50, R54, `DATA_WIDTH`). -/
abbrev Data := BitVec 64

end Sys2Proof
end

