-- ==== Sys2Proof/Config.lean ====
section
/-! DEFINITION. What an implementation of the block fixes (R4). The fixed widths are in the types of Word.lean and in the
meanings; D27 says they are constants. -/

namespace Sys2Proof.Config

/-- `R_MIN`, the least legal width of `RDBITS` and `WRBITS` (R4, R56). -/
def rMin : Nat := 1

/-- `R_MAX`, the greatest legal width of `RDBITS` and `WRBITS` (R4, R56). -/
def rMax : Nat := 32

/-- `CODEWORD_WIDTH`: used by the pseudo-operations `RDCODE` and `WRCODE` alone; no command depends on it (R4, D27). -/
def codewordWidth : Nat := 12

/-- `HANDSHAKE`, the signal-level protocol of the channels: OPEN, and no rule reads it (R4, R51, D1). The number stands for
whichever protocol an implementation takes; nothing in the model reads it. Log entry 16. -/
opaque handshake : Nat

end Sys2Proof.Config
end

