-- ==== Sys2Proof/Syntax.lean ====
section
/-! DEFINITION. The commands of the block: one constructor per row of spec/opcode_table.json (R57). -/

namespace Sys2Proof

/-- The two units of the block (R1, R51); also the class of a command word (R52). -/
inductive Port where
  | reader
  | writer
deriving DecidableEq, Repr

/-- The twenty commands (R57). The operand `wdata` travels beside the command word (R50) and is no part of it; the width `r`
of `RDBITS` and `WRBITS` is the only immediate (R56), a number that `Instr.WellFormed` bounds by the 8-bit field. -/
inductive Instr where
  | rbind
  | rdbit
  | rdbyte
  | rdshort
  | rdint
  | rdlong
  | rdbits (r : Nat)
  | rdall
  | rstat
  | rclose
  | wbind
  | wrbit
  | wrbyte
  | wrshort
  | wrint
  | wrlong
  | wrbits (r : Nat)
  | flush
  | wstat
  | wclose
deriving DecidableEq, Repr

/-- The unit a command belongs to (R57, column class). -/
def Instr.port : Instr → Port
  | .rbind => .reader
  | .rdbit => .reader
  | .rdbyte => .reader
  | .rdshort => .reader
  | .rdint => .reader
  | .rdlong => .reader
  | .rdbits _ => .reader
  | .rdall => .reader
  | .rstat => .reader
  | .rclose => .reader
  | .wbind => .writer
  | .wrbit => .writer
  | .wrbyte => .writer
  | .wrshort => .writer
  | .wrint => .writer
  | .wrlong => .writer
  | .wrbits _ => .writer
  | .flush => .writer
  | .wstat => .writer
  | .wclose => .writer

/-- The pseudo-operation `RDCODE` (R61, R112). -/
abbrev Instr.rdcode : Instr := .rdbits Config.codewordWidth

/-- The pseudo-operation `WRCODE`; its value is the operand `wdata` (R61, R112). -/
abbrev Instr.wrcode : Instr := .wrbits Config.codewordWidth

end Sys2Proof
end

