-- ==== Sys2Proof/WellFormed.lean ====
section
/-! DEFINITION. Which terms of `Instr` are commands of the block. -/

namespace Sys2Proof

/-- The width operand fits the 8-bit field `arg` (R52, R56). A width that fits and is not legal (0, 33 to 255) is a
WELL-FORMED command, which answers `ST_INVALID_ARG` (R58, R132). -/
abbrev widthEncodable (r : Nat) : Prop := r < 256

/-- Every command is well formed but for a width that the field cannot hold. -/
def Instr.wellFormed : Instr → Bool
  | .rdbits r => decide (widthEncodable r)
  | .wrbits r => decide (widthEncodable r)
  | .rbind => true
  | .rdbit => true
  | .rdbyte => true
  | .rdshort => true
  | .rdint => true
  | .rdlong => true
  | .rdall => true
  | .rstat => true
  | .rclose => true
  | .wbind => true
  | .wrbit => true
  | .wrbyte => true
  | .wrshort => true
  | .wrint => true
  | .wrlong => true
  | .flush => true
  | .wstat => true
  | .wclose => true

abbrev Instr.WellFormed (i : Instr) : Prop := i.wellFormed = true

end Sys2Proof
end

