-- ==== Sys2Proof/Decode.lean ====
section
/-! DEFINITION. From a command word to a command or a rejection by name, total on all 65536 words (R52, R57, R58), and back. -/

namespace Sys2Proof

/-- Why a word is illegal (R58). -/
inductive DecodeError where
  | reservedClass   -- class not 1 or 2
  | reservedOp      -- op 0xA to 0xF
  | nonzeroArg      -- op other than 6 with arg not 0x00
deriving DecidableEq, Repr

/-- `class`, bits 15:12 (R52). -/
def Cmd.cls (w : Cmd) : BitVec 4 := w.extractLsb' 12 4

/-- `op`, bits 11:8 (R52). -/
def Cmd.op (w : Cmd) : BitVec 4 := w.extractLsb' 8 4

/-- `arg`, bits 7:0 (R52). -/
def Cmd.arg (w : Cmd) : BitVec 8 := w.extractLsb' 0 8

/-- `cmd = class << 12 | op << 8 | arg` (R52). -/
def cmdWord (cls op : BitVec 4) (arg : BitVec 8) : Cmd := (cls ++ op) ++ arg

/-- The reader commands whose `arg` is 0, by `op` (R57). -/
def readerFixed (op : BitVec 4) : Option Instr :=
  match op.toNat with
  | 0 => some .rbind
  | 1 => some .rdbit
  | 2 => some .rdbyte
  | 3 => some .rdshort
  | 4 => some .rdint
  | 5 => some .rdlong
  | 7 => some .rdall
  | 8 => some .rstat
  | 9 => some .rclose
  | _ => none

/-- The writer commands whose `arg` is 0, by `op` (R57). -/
def writerFixed (op : BitVec 4) : Option Instr :=
  match op.toNat with
  | 0 => some .wbind
  | 1 => some .wrbit
  | 2 => some .wrbyte
  | 3 => some .wrshort
  | 4 => some .wrint
  | 5 => some .wrlong
  | 7 => some .flush
  | 8 => some .wstat
  | 9 => some .wclose
  | _ => none

/-- The end of decoding a word that takes no width: `op` must be listed, then `arg` must be 0 (R57, R58). -/
def decodeFixed (row : Option Instr) (arg : BitVec 8) : Except DecodeError Instr :=
  match row with
  | none => .error .reservedOp
  | some i => if arg = 0 then .ok i else .error .nonzeroArg

/-- "To decode: test `class`; then `op`; then, for every `op` other than 6, that `arg = 0`" (R57). -/
def decode (w : Cmd) : Except DecodeError Instr :=
  if w.cls = 1 then
    if w.op = 6 then .ok (.rdbits w.arg.toNat) else decodeFixed (readerFixed w.op) w.arg
  else if w.cls = 2 then
    if w.op = 6 then .ok (.wrbits w.arg.toNat) else decodeFixed (writerFixed w.op) w.arg
  else .error .reservedClass

/-- The word of a command, from the table of R57. -/
def encode : Instr → Cmd
  | .rbind => cmdWord 1 0x0 0
  | .rdbit => cmdWord 1 0x1 0
  | .rdbyte => cmdWord 1 0x2 0
  | .rdshort => cmdWord 1 0x3 0
  | .rdint => cmdWord 1 0x4 0
  | .rdlong => cmdWord 1 0x5 0
  | .rdbits r => cmdWord 1 0x6 (BitVec.ofNat 8 r)
  | .rdall => cmdWord 1 0x7 0
  | .rstat => cmdWord 1 0x8 0
  | .rclose => cmdWord 1 0x9 0
  | .wbind => cmdWord 2 0x0 0
  | .wrbit => cmdWord 2 0x1 0
  | .wrbyte => cmdWord 2 0x2 0
  | .wrshort => cmdWord 2 0x3 0
  | .wrint => cmdWord 2 0x4 0
  | .wrlong => cmdWord 2 0x5 0
  | .wrbits r => cmdWord 2 0x6 (BitVec.ofNat 8 r)
  | .flush => cmdWord 2 0x7 0
  | .wstat => cmdWord 2 0x8 0
  | .wclose => cmdWord 2 0x9 0

/-- The decoder on a word numbered as the opcode table numbers it. A command is one 16-bit word and nothing follows it
(R52, R59), so a longer or wider number is no command. -/
def decodeTableWord (nbits w : Nat) : Option Instr :=
  if nbits ≤ 16 ∧ w < 2 ^ nbits then
    match decode (BitVec.ofNat 16 w) with
    | .ok i => some i
    | .error _ => none
  else none

end Sys2Proof
end

