-- ==== Sys2Proof/Machine/State.lean ====
section
/-! DEFINITION. The state of the block and of its environment as plain data, the reasons a step can stop, and reset. -/

namespace Sys2Proof.Machine

/-- A unit's lifecycle state (R13, R16). The register is 2 bits wide; its numbers are in `Life.code` (Machine/Flags.lean),
and the value 3 never occurs. -/
inductive Life where
  | unbound
  | bound
  | closed
deriving DecidableEq, Repr

/-- The BitReader's registers (R10 to R13). -/
structure ReaderRegs where
  buf  : Byte
  n    : Count
  eof  : Bool
  life : Life
deriving DecidableEq, Repr

/-- The BitWriter's registers (R14 to R16). -/
structure WriterRegs where
  buf  : Byte
  n    : Count
  life : Life
deriving DecidableEq, Repr

/-- `SRC`, the byte source: the environment of the reader (R18). -/
structure Source where
  bytes    : List Byte
  pos      : Nat
  released : Bool
deriving DecidableEq, Repr

/-- `SNK`, the byte sink: the environment of the writer (R19). -/
structure Sink where
  bytes  : List Byte
  closed : Bool
deriving DecidableEq, Repr

/-- The status of a response (R54, R130); its numbers are in `Status.code` (Machine/Flags.lean). The numbers 5 to 7 are never
produced. -/
inductive Status where
  | ok
  | eos
  | invalidArg
  | state
  | illegal
deriving DecidableEq, Repr

/-- One transaction of `BR.RSP` (R51, R54). -/
structure ReaderResponse where
  status : Status
  rdata  : Data
  rbytes : List Byte
deriving DecidableEq, Repr

/-- One transaction of `BW.RSP` (R51, R54). -/
structure WriterResponse where
  status : Status
  rdata  : Data
deriving DecidableEq, Repr

/-- What the outside does to the block, between commands: a transaction on a command channel, a reset input (R51), or the
presenting of a source or a sink (R152 step 2; log entry 8). -/
inductive Input where
  | readerCmd (cmd : Cmd) (wdata : Data)
  | writerCmd (cmd : Cmd) (wdata : Data)
  | brRst
  | bwRst
  | presentSource (bytes : List Byte)
  | presentSink
deriving DecidableEq, Repr

/-- Everything the spec gives the machine: the registers of both units, their environments, and the channels. The inputs wait
in the order they arrive (log entry 1); the responses stand in the order they were given, oldest first (log entry 2). -/
structure State where
  br      : ReaderRegs
  bw      : WriterRegs
  src     : Source
  snk     : Sink
  brWdata : Data
  bwWdata : Data
  brRsp   : List ReaderResponse
  bwRsp   : List WriterResponse
  inputs  : List Input
deriving DecidableEq, Repr

/-- The reader's side of the state: all that a reader command may read or write, its response apart (R27). -/
structure ReaderSide where
  br  : ReaderRegs
  src : Source
deriving DecidableEq, Repr

/-- The writer's side of the state: all that a writer command may write, its response apart (R27). -/
structure WriterSide where
  bw  : WriterRegs
  snk : Sink
deriving DecidableEq, Repr

/-- The block reports its own errors in a response and goes on (R137, R138), so none of them is a fault. A fault of the model is
an access whose precondition the spec states and the environment broke. -/
inductive Fault where
  /-- `SrcNext()` on a source that is released, against the precondition of R32. Raised by `fill`: `RBIND` on a source that was
  not presented again after an `RCLOSE`. Safe: the model stops where the spec gives the access no effect. Log entry 6. -/
  | sourceReleased
  /-- `SinkPut(b)` on a sink that is closed, against the precondition of R33. Raised by `Sink.put`: a write, a `FLUSH` or a
  `WCLOSE` that completes a byte, on a sink that was not presented again after a `WCLOSE`. Safe, as above. Log entry 7. -/
  | sinkClosed
deriving DecidableEq, Repr

/-- What the model gives no meaning. No command of the block is among it. -/
inductive Refusal where
  /-- Raised by an arm of `exec` for an instruction that has no meaning yet; no arm does. Safe. -/
  | notModelled (mnemonic : String)
  /-- A source presented while the reader is not `UNBOUND`, against "fixed before `RBIND` and never changed" (R18) and the order
  of R152. Raised by `handleInput`. Safe: the model stops. Log entry 8. -/
  | sourceInUse
  /-- A sink presented while the writer is not `UNBOUND`, against R24 (d) and the order of R152. Raised by `handleInput`. Safe:
  the model stops. Log entry 8. -/
  | sinkInUse
deriving DecidableEq, Repr

/-- The reset values of the reader (R25). -/
def ReaderRegs.reset : ReaderRegs := { buf := 0x00, n := 0, eof := false, life := .unbound }

/-- The reset values of the writer (R25). -/
def WriterRegs.reset : WriterRegs := { buf := 0x00, n := 0, life := .unbound }

/-- Both units right after reset, with the environment in its start state (R25). The source holds no byte until one is
presented, the operand lines are 0, and no response has been given: DESIGN CHOICE, log entry 4. -/
def State.reset : State where
  br      := ReaderRegs.reset
  bw      := WriterRegs.reset
  src     := { bytes := [], pos := 0, released := false }
  snk     := { bytes := [], closed := false }
  brWdata := 0
  bwWdata := 0
  brRsp   := []
  bwRsp   := []
  inputs  := []

end Sys2Proof.Machine
end

