-- ==== Sys2Proof/Machine/Flags.lean ====
section
/-! DEFINITION. The status computations: the numbers of statuses and lifecycle states, and the views `empty`, `RSTAT` and
`WSTAT` (R13, R20 to R22, R130). -/

namespace Sys2Proof.Machine

/-- The 2-bit number of a lifecycle state (R13). -/
def Life.code : Life → BitVec 2
  | .unbound => 0
  | .bound => 1
  | .closed => 2

/-- The 3-bit code of a status (R54, R130). -/
def Status.code : Status → BitVec 3
  | .ok => 0
  | .eos => 1
  | .invalidArg => 2
  | .state => 3
  | .illegal => 4

/-- `BR.empty`, not a register: `n = 0` (R20). -/
def ReaderRegs.empty (b : ReaderRegs) : Bool := b.n == 0

/-- `RSTAT`: `life[1:0] ++ empty ++ eof ++ n[3:0]` (R21, R80). -/
def ReaderRegs.rstat (b : ReaderRegs) : BitVec 8 :=
  ((b.life.code ++ BitVec.ofBool b.empty) ++ BitVec.ofBool b.eof) ++ b.n

/-- `WSTAT`: `life[1:0] ++ 0b00 ++ n[3:0]` (R22, R99). -/
def WriterRegs.wstat (b : WriterRegs) : BitVec 8 := (b.life.code ++ (0 : BitVec 2)) ++ b.n

/-- The pseudo-operation `REMPTY`: bit 5 of what `RSTAT` answers (R61). -/
def remptyOf (rdata : Data) : Bool := rdata.getLsbD 5

end Sys2Proof.Machine
end

