-- ==== Sys2Proof/Machine/Operands.lean ====
section
/-! DEFINITION. The operand forms: the width operand, the slices of `wdata`, the assembly of a result (R54 to R56, R7). -/

namespace Sys2Proof.Machine

/-- The legal widths of `RDBITS` and `WRBITS`: 1 to 32 (R56, R132). -/
abbrev widthLegal (r : Nat) : Prop := Config.rMin ≤ r ∧ r ≤ Config.rMax

/-- Byte `k` of an operand, `v[8*k+7 : 8*k]`; byte 0 is the least significant (R95). -/
def byteOf {w : Nat} (v : BitVec w) (k : Nat) : Byte := v.extractLsb' (8 * k) 8

/-- One more byte at the low-order end of a quantity: `(x << 8) | b` (R74, R122). -/
def appendByte {w : Nat} (x : BitVec w) (b : Byte) : BitVec w := (x <<< 8) ||| b.setWidth w

/-- Bytes in stream order as one quantity, the first byte the most significant (R35, R74 to R76). -/
def joinBytes (w : Nat) (bs : List Byte) : BitVec w := bs.foldl appendByte 0

/-- One more bit at the low-order end of a quantity: `(x << 1) | b` (R77, R91). -/
def appendBit {w : Nat} (x : BitVec w) (b : Bool) : BitVec w := (x <<< 1) ||| (BitVec.ofBool b).setWidth w

/-- The byte of a splice: the `old` resident bits of `resident`, then the top `8 - old` bits of the next byte; on 8 bits
`(hi << (8 - old)) | (buf >> old)` (R73 case C, R39). -/
def splice (old : Nat) (resident next : Byte) : Byte := (resident <<< (8 - old)) ||| (next >>> old)

/-- The byte an explicit flush sends: `n` pending bits in the high-order positions, zeros below, `(buf << (8 - n))[7:0]`
(R40, R97, C1). -/
def padded (n : Nat) (buf : Byte) : Byte := buf <<< (8 - n)

/-- The result pattern on the 64-bit bus: zero-extended, never sign-extended (R54). -/
def onBus {w : Nat} (v : BitVec w) : Data := v.setWidth 64

/-- The signed number a host reads from a `w`-bit result: `signed_W` of the low `w` bits (R7; two's complement is the spec's
general knowledge G1, PRESUMED, log entry 18). The block itself never computes it. -/
def signedOf (w : Nat) (rdata : Data) : Int := (rdata.setWidth w).toInt

end Sys2Proof.Machine
end

