-- ==== Sys2Proof/Machine/Ops.lean ====
section
/-! DEFINITION. The shared operations: the primitives of both streams, the refill, the bit, byte and composite reads, the bit,
byte and composite writes, the flush, and how a command ends (R8, R32, R33, R70, R137). -/

namespace Sys2Proof.Machine

abbrev Outcome := Host.Outcome State Fault Refusal

/-! ### The source and the refill -/

/-- What the source answers to a request (R32). -/
inductive SrcReply where
  | byte (b : Byte)
  | exhausted
deriving DecidableEq, Repr

/-- `SrcNext()` (R32). Its precondition is tested by its only caller, `fill`. -/
def Source.next (s : Source) : SrcReply × Source :=
  match s.bytes[s.pos]? with
  | some b => (.byte b, { s with pos := s.pos + 1 })
  | none => (.exhausted, s)

/-- `SrcRelease()` (R32). -/
def Source.release (s : Source) : Source := { s with released := true }

/-- How a piece of a reader command's pseudocode ends: with a value, by `raise EOS`, or on a broken precondition. State written
before a `raise` stays written (R8), so both of the first carry the reader's side. -/
inductive ReadOut (α : Type) where
  | ok (v : α) (r : ReaderSide)
  | eos (r : ReaderSide)
  | fault (f : Fault)
deriving DecidableEq, Repr

/-- The next line of the pseudocode; a `raise` inside ends the whole command (R74). -/
def ReadOut.bind {α β : Type} (o : ReadOut α) (k : α → ReaderSide → ReadOut β) : ReadOut β :=
  match o with
  | .ok v r => k v r
  | .eos r => .eos r
  | .fault f => .fault f

/-- The same end with another value. -/
def ReadOut.map {α β : Type} (g : α → β) (o : ReadOut α) : ReadOut β :=
  o.bind fun v r => .ok (g v) r

/-- `n <- n'` in the reader. -/
def ReaderSide.setN (r : ReaderSide) (n : Count) : ReaderSide := { r with br := { r.br with n := n } }

/-- `Fill()`: true if a new byte was loaded (R70). The source is asked only with `eof = 0`, and only if it is not released
(R32; log entry 6). -/
def fill (r : ReaderSide) : ReadOut Bool :=
  if r.br.eof then .ok false r
  else if r.src.released then .fault .sourceReleased
  else
    match r.src.next with
    | (.byte b, src) => .ok true { br := { r.br with buf := b, n := 8 }, src := src }
    | (.exhausted, src) => .ok false { br := { r.br with eof := true }, src := src }

/-! ### Reads -/

/-- `RDBIT()` (R72). -/
def readBit (r : ReaderSide) : ReadOut Bool :=
  if r.br.n = 0 then .eos r
  else
    let n := r.br.n - 1
    let b := r.br.buf.getLsbD n.toNat
    if n = 0 then (fill (r.setN n)).bind fun _ r' => .ok b r'
    else .ok b (r.setN n)

/-- `RDBYTE()` (R73): cases A, B and C. The splice keeps the count: `n <- old`. -/
def readByte (r : ReaderSide) : ReadOut Byte :=
  if r.br.n = 0 then .eos r
  else if r.br.n = 8 then (fill (r.setN 0)).bind fun _ r' => .ok r.br.buf r'
  else
    (fill r).bind fun loaded r' =>
      if loaded then .ok (splice r.br.n.toNat r.br.buf r'.br.buf) (r'.setN r.br.n) else .eos r'

/-- `k` byte reads one after the other; bytes read before a failing one stay consumed (R74 to R76, D8). -/
def readBytes : Nat → ReaderSide → ReadOut (List Byte)
  | 0, r => .ok [] r
  | k + 1, r => (readByte r).bind fun b r' => (readBytes k r').bind fun bs r'' => .ok (b :: bs) r''

/-- The quantity of `k` byte reads, most significant byte first, on `w` bits (R74 to R76). -/
def readQuantity (w k : Nat) (r : ReaderSide) : ReadOut (BitVec w) := (readBytes k r).map (joinBytes w)

/-- "repeat k times: x <- (x << 1) | RDBIT()" on a 32-bit `x` (R77). -/
def readLoop : Nat → BitVec 32 → ReaderSide → ReadOut (BitVec 32)
  | 0, x, r => .ok x r
  | k + 1, x, r => (readBit r).bind fun b r' => readLoop k (appendBit x b) r'

/-- `RDBITS r` past its prologue: the byte, short and int reads for 8, 16 and 32, else bit by bit (R77). -/
def readWidth (k : Nat) (r : ReaderSide) : ReadOut (BitVec 32) :=
  if k = 8 then (readByte r).map fun b => b.setWidth 32
  else if k = 16 then (readQuantity 16 2 r).map fun v => v.setWidth 32
  else if k = 32 then readQuantity 32 4 r
  else readLoop k 0 r

/-- "while n /= 0: out <- out ++ [RDBYTE()]" (R78). The fuel bounds the rounds; the caller gives more than there can be (log
entry 11, `readAll_fuel` in Laws/Reader.lean). -/
def readAllLoop : Nat → List Byte → ReaderSide → ReadOut (List Byte)
  | 0, out, r => .ok out r
  | fuel + 1, out, r =>
    if r.br.n = 0 then .ok out r
    else (readByte r).bind fun b r' => readAllLoop fuel (out ++ [b]) r'

/-- The rounds `RDALL` can need: "the loop ends after at most `|SRC.bytes| - SRC.pos + 1` byte reads" (R78), and one more test. -/
def readAllFuel (r : ReaderSide) : Nat := r.src.bytes.length - r.src.pos + 2

/-- `RDALL` past its prologue (R78). -/
def readAll (r : ReaderSide) : ReadOut (List Byte) := readAllLoop (readAllFuel r) [] r

/-- `RBIND` past its prologue (R71). -/
def bindReader (r : ReaderSide) : ReadOut Bool :=
  fill { r with br := { buf := 0x00, n := 0, eof := false, life := .bound } }

/-- `RCLOSE` past its prologue (R81). -/
def closeReader (r : ReaderSide) : ReaderSide :=
  { br := { r.br with life := .closed, n := 0, eof := true }, src := r.src.release }

/-! ### The sink and writes -/

/-- `SinkPut(b)` (R33), with its precondition (log entry 7). -/
def Sink.put (k : Sink) (b : Byte) : Except Fault Sink :=
  if k.closed then .error .sinkClosed else .ok { k with bytes := k.bytes ++ [b] }

/-- `SinkClose()` (R33). -/
def Sink.close (k : Sink) : Sink := { k with closed := true }

/-- A byte goes to the sink and the accumulator is emptied (R91, R97). -/
def emit (b : Byte) (w : WriterSide) : Except Fault WriterSide :=
  match w.snk.put b with
  | .ok snk => .ok { bw := { w.bw with buf := 0x00, n := 0 }, snk := snk }
  | .error f => .error f

/-- `WRBIT-body(b)` (R91). -/
def writeBit (b : Bool) (w : WriterSide) : Except Fault WriterSide :=
  let buf := appendBit w.bw.buf b
  let n := w.bw.n + 1
  if n = 8 then emit buf w
  else .ok { w with bw := { w.bw with buf := buf, n := n } }

/-- "for i from k-1 down to 0: WRBIT-body(v[i])" (R92, R96). -/
def writeBits {m : Nat} (v : BitVec m) : Nat → WriterSide → Except Fault WriterSide
  | 0, w => .ok w
  | k + 1, w =>
    match writeBit (v.getLsbD k) w with
    | .ok w' => writeBits v k w'
    | .error f => .error f

/-- `WRBYTE-body(x)` (R92). -/
def writeByte (x : Byte) (w : WriterSide) : Except Fault WriterSide := writeBits x 8 w

/-- The low `k` bytes of an operand, most significant first, each by `WRBYTE-body` (R93 to R95). -/
def writeBytes {m : Nat} (v : BitVec m) : Nat → WriterSide → Except Fault WriterSide
  | 0, w => .ok w
  | k + 1, w =>
    match writeByte (byteOf v k) w with
    | .ok w' => writeBytes v k w'
    | .error f => .error f

/-- `WRBITS r` past its prologue: 32 is the int write, every other width bit by bit (R96). -/
def writeWidth (k : Nat) (v : Data) (w : WriterSide) : Except Fault WriterSide :=
  if k = 32 then writeBytes v 4 w else writeBits v k w

/-- `FLUSH-body()` (R97). -/
def flushBody (w : WriterSide) : Except Fault WriterSide :=
  if w.bw.n = 0 then .ok w else emit (padded w.bw.n.toNat w.bw.buf) w

/-- `WBIND` past its prologue (R90). -/
def bindWriter (w : WriterSide) : WriterSide :=
  { w with bw := { buf := 0x00, n := 0, life := .bound } }

/-- `WCLOSE` past its prologue (R100). -/
def closeWriter (w : WriterSide) : Except Fault WriterSide :=
  match flushBody w with
  | .ok w' => .ok { bw := { w'.bw with life := .closed }, snk := w'.snk.close }
  | .error f => .error f

/-! ### The two sides of the state -/

def State.readerSide (s : State) : ReaderSide := { br := s.br, src := s.src }

def State.setReader (s : State) (r : ReaderSide) : State := { s with br := r.br, src := r.src }

def State.writerSide (s : State) : WriterSide := { bw := s.bw, snk := s.snk }

def State.setWriter (s : State) (w : WriterSide) : State := { s with bw := w.bw, snk := w.snk }

/-! ### Ending a command -/

/-- One response on `BR.RSP` (R53, R54). -/
def State.answerReader (s : State) (p : ReaderResponse) : State := { s with brRsp := s.brRsp ++ [p] }

/-- One response on `BW.RSP` (R53, R54). -/
def State.answerWriter (s : State) (p : WriterResponse) : State := { s with bwRsp := s.bwRsp ++ [p] }

/-- TAKING AN ERROR, in either unit: the command ends, the response carries the status with `rdata = 0` and `rbytes = []`, and the
state is what the pseudocode had written (R137). There is no saved state, no vector and no mode change, so there is nothing to
return from (R138): the next command is taken as any other. -/
def raiseOn (port : Port) (st : Status) (s : State) : Outcome :=
  match port with
  | .reader => .next (s.answerReader { status := st, rdata := 0, rbytes := [] })
  | .writer => .next (s.answerWriter { status := st, rdata := 0 })

/-- `return` in the reader: status `ST_OK` (R8, R54). -/
def returnReader (rdata : Data) (rbytes : List Byte) (s : State) : Outcome :=
  .next (s.answerReader { status := .ok, rdata := rdata, rbytes := rbytes })

/-- `return` in the writer: status `ST_OK` (R8, R54). -/
def returnWriter (rdata : Data) (s : State) : Outcome :=
  .next (s.answerWriter { status := .ok, rdata := rdata })

/-- The end of a reader command whose body has run: the result, `ST_EOS` with what the body had written (R137), or the fault. -/
def finishReader {α : Type} (rdata : α → Data) (rbytes : α → List Byte) (s : State) (o : ReadOut α) : Outcome :=
  match o with
  | .ok v r => returnReader (rdata v) (rbytes v) (s.setReader r)
  | .eos r => raiseOn .reader .eos (s.setReader r)
  | .fault f => .fault f

/-- The end of a writer command whose body has run. -/
def finishWriter (s : State) (o : Except Fault WriterSide) : Outcome :=
  match o with
  | .ok w => returnWriter 0 (s.setWriter w)
  | .error f => .fault f

/-- A data read: prologue step 7, then the body (R79). -/
def dataRead {α : Type} (body : ReaderSide → ReadOut α) (rdata : α → Data) (rbytes : α → List Byte) (s : State) : Outcome :=
  if s.br.life = .bound then finishReader rdata rbytes s (body s.readerSide)
  else raiseOn .reader .state s

/-- A write or a `FLUSH`: prologue step 7, then the body (R98). -/
def dataWrite (body : WriterSide → Except Fault WriterSide) (s : State) : Outcome :=
  if s.bw.life = .bound then finishWriter s (body s.writerSide)
  else raiseOn .writer .state s

/-! ### Resets, the environment, and the channels -/

/-- `br_rst` (R150): the reader's registers and nothing else (R151). -/
def State.resetReader (s : State) : State := { s with br := ReaderRegs.reset }

/-- `bw_rst` (R150): the writer's registers and nothing else (R151). -/
def State.resetWriter (s : State) : State := { s with bw := WriterRegs.reset }

/-- A source in its start state (R25, R151, R152 step 2). -/
def State.newSource (s : State) (bytes : List Byte) : State :=
  { s with src := { bytes := bytes, pos := 0, released := false } }

/-- A sink in its start state (R25, R151, R152 step 2). -/
def State.newSink (s : State) : State := { s with snk := { bytes := [], closed := false } }

/-- The operand lines of a unit's command channel carry the operand of the command in hand (R50, R51). -/
def State.setWdata (port : Port) (wdata : Data) (s : State) : State :=
  match port with
  | .reader => { s with brWdata := wdata }
  | .writer => { s with bwWdata := wdata }

/-- What a unit makes of a word on its own channel: the decoder's command, if it is one of that unit's (R58). -/
def commandOn (port : Port) (cmd : Cmd) : Option Instr :=
  match decode cmd with
  | .ok i => if i.port = port then some i else none
  | .error _ => none

/-- A command as an input on a unit's channel. -/
def Input.command (port : Port) (cmd : Cmd) (wdata : Data) : Input :=
  match port with
  | .reader => .readerCmd cmd wdata
  | .writer => .writerCmd cmd wdata

/-- The channel a word is sent to: the writer's for class 2, else the reader's (R51, R52). -/
def channelOf (cmd : Cmd) : Port := if cmd.cls = 2 then .writer else .reader

end Sys2Proof.Machine
end

