-- ==== Sys2Proof/Machine/ReaderCommands.lean ====
section
/-! DEFINITION. The meanings of the ten reader commands (spec/40_reader_ops.md). -/

namespace Sys2Proof.Machine

/-- `RBIND` (R71): refused unless `UNBOUND` (R79 step 4); never `EOS`. -/
def execRbind (s : State) : Outcome :=
  if s.br.life = .unbound then finishReader (fun _ => 0) (fun _ => []) s (bindReader s.readerSide)
  else raiseOn .reader .state s

/-- `RDBIT` (R72). -/
def execRdbit (s : State) : Outcome := dataRead readBit (fun b => onBus (BitVec.ofBool b)) (fun _ => []) s

/-- `RDBYTE` (R73). -/
def execRdbyte (s : State) : Outcome := dataRead readByte onBus (fun _ => []) s

/-- `RDSHORT` (R74). -/
def execRdshort (s : State) : Outcome := dataRead (readQuantity 16 2) onBus (fun _ => []) s

/-- `RDINT` (R75). -/
def execRdint (s : State) : Outcome := dataRead (readQuantity 32 4) onBus (fun _ => []) s

/-- `RDLONG` (R76). -/
def execRdlong (s : State) : Outcome := dataRead (readQuantity 64 8) onBus (fun _ => []) s

/-- `RDBITS r` (R77): the width is tested before the lifecycle (R79 steps 2 and 7, R136). -/
def execRdbits (r : Nat) (s : State) : Outcome :=
  if widthLegal r then dataRead (readWidth r) onBus (fun _ => []) s
  else raiseOn .reader .invalidArg s

/-- `RDALL` (R78): the result is in `rbytes`, and `rdata = 0`. -/
def execRdall (s : State) : Outcome := dataRead readAll (fun _ => 0) (fun bs => bs) s

/-- `RSTAT` (R80), legal in every lifecycle state (R79 step 3). -/
def execRstat (s : State) : Outcome := returnReader (onBus s.br.rstat) [] s

/-- `RCLOSE` (R81, R79 steps 5 and 6): a second close is a no-op that answers `ST_OK`. -/
def execRclose (s : State) : Outcome :=
  match s.br.life with
  | .unbound => raiseOn .reader .state s
  | .bound => returnReader 0 [] (s.setReader (closeReader s.readerSide))
  | .closed => returnReader 0 [] s

end Sys2Proof.Machine
end

