-- ==== Sys2Proof/Machine/WriterCommands.lean ====
section
/-! DEFINITION. The meanings of the ten writer commands (spec/41_writer_ops.md). Writing after close answers `ST_STATE`, as this
hardware does (R98 step 7, R140; log entry 9). -/

namespace Sys2Proof.Machine

/-- `WBIND` (R90): refused unless `UNBOUND` (R98 step 4); no stream access. -/
def execWbind (s : State) : Outcome :=
  if s.bw.life = .unbound then returnWriter 0 (s.setWriter (bindWriter s.writerSide))
  else raiseOn .writer .state s

/-- `WRBIT` (R91): the bit is `wdata[0]`. -/
def execWrbit (s : State) : Outcome := dataWrite (writeBit (s.bwWdata.getLsbD 0)) s

/-- `WRBYTE` (R92): the byte is `wdata[7:0]`. -/
def execWrbyte (s : State) : Outcome := dataWrite (writeByte (byteOf s.bwWdata 0)) s

/-- `WRSHORT` (R93). -/
def execWrshort (s : State) : Outcome := dataWrite (writeBytes s.bwWdata 2) s

/-- `WRINT` (R94). -/
def execWrint (s : State) : Outcome := dataWrite (writeBytes s.bwWdata 4) s

/-- `WRLONG` (R95). -/
def execWrlong (s : State) : Outcome := dataWrite (writeBytes s.bwWdata 8) s

/-- `WRBITS r` (R96): the width is tested before the lifecycle (R98 steps 2 and 7, R136). -/
def execWrbits (r : Nat) (s : State) : Outcome :=
  if widthLegal r then dataWrite (writeWidth r s.bwWdata) s
  else raiseOn .writer .invalidArg s

/-- `FLUSH` (R97). -/
def execFlush (s : State) : Outcome := dataWrite flushBody s

/-- `WSTAT` (R99), legal in every lifecycle state (R98 step 3). -/
def execWstat (s : State) : Outcome := returnWriter (onBus s.bw.wstat) s

/-- `WCLOSE` (R100, R98 steps 5 and 6): a second close is a no-op that answers `ST_OK`. -/
def execWclose (s : State) : Outcome :=
  match s.bw.life with
  | .unbound => raiseOn .writer .state s
  | .bound => finishWriter s (closeWriter s.writerSide)
  | .closed => returnWriter 0 s

end Sys2Proof.Machine
end

