-- ==== Sys2Proof/Machine/Dispatch.lean ====
section
/-! DEFINITION. The meaning of every command, one arm each. -/

namespace Sys2Proof.Machine

def exec (i : Instr) (s : State) : Host.Outcome State Fault Refusal :=
  match i with
  | .rbind => Sys2Proof.Machine.execRbind s
  | .rdbit => Sys2Proof.Machine.execRdbit s
  | .rdbyte => Sys2Proof.Machine.execRdbyte s
  | .rdshort => Sys2Proof.Machine.execRdshort s
  | .rdint => Sys2Proof.Machine.execRdint s
  | .rdlong => Sys2Proof.Machine.execRdlong s
  | .rdbits r => Sys2Proof.Machine.execRdbits r s
  | .rdall => Sys2Proof.Machine.execRdall s
  | .rstat => Sys2Proof.Machine.execRstat s
  | .rclose => Sys2Proof.Machine.execRclose s
  | .wbind => Sys2Proof.Machine.execWbind s
  | .wrbit => Sys2Proof.Machine.execWrbit s
  | .wrbyte => Sys2Proof.Machine.execWrbyte s
  | .wrshort => Sys2Proof.Machine.execWrshort s
  | .wrint => Sys2Proof.Machine.execWrint s
  | .wrlong => Sys2Proof.Machine.execWrlong s
  | .wrbits r => Sys2Proof.Machine.execWrbits r s
  | .flush => Sys2Proof.Machine.execFlush s
  | .wstat => Sys2Proof.Machine.execWstat s
  | .wclose => Sys2Proof.Machine.execWclose s

end Sys2Proof.Machine
end

