-- ==== Sys2Proof/Machine/Inputs.lean ====
section
/-! DEFINITION. What one input does: a command on a channel, a reset, or an environment presented (R51, R58, R150 to R152). -/

namespace Sys2Proof.Machine

/-- A word on a unit's channel: a command of that unit runs with its operand on the lines; every other word is answered
`ST_ILLEGAL` and changes nothing (R58, R79 step 1, R98 step 1). -/
def runCommand (port : Port) (cmd : Cmd) (wdata : Data) (s : State) : Outcome :=
  match commandOn port cmd with
  | some i => exec i (s.setWdata port wdata)
  | none => raiseOn port .illegal s

/-- One input, already taken from the list. A source or a sink is presented before the bind and after the reset, so only to an
`UNBOUND` unit (R18, R152; log entry 8). -/
def handleInput (e : Input) (s : State) : Outcome :=
  match e with
  | .readerCmd cmd wdata => runCommand .reader cmd wdata s
  | .writerCmd cmd wdata => runCommand .writer cmd wdata s
  | .brRst => .next s.resetReader
  | .bwRst => .next s.resetWriter
  | .presentSource bytes => if s.br.life = .unbound then .next (s.newSource bytes) else .refused .sourceInUse
  | .presentSink => if s.bw.life = .unbound then .next s.newSink else .refused .sinkInUse

/-- Take the oldest input and carry it out whole. With none, the units simply hold their state (R141; log entry 3). -/
def takeInput (s : State) : Outcome :=
  match s.inputs with
  | [] => .next s
  | e :: rest => handleInput e { s with inputs := rest }

/-- A command put at the head of the inputs, on the channel of its class, with operand 0 (log entry 19). -/
def State.presentWord (s : State) (cmd : Cmd) : State :=
  { s with inputs := Input.command (channelOf cmd) cmd 0 :: s.inputs }

end Sys2Proof.Machine
end

