-- ==== Sys2Proof/Machine/Step.lean ====
section
/-! DEFINITION. One step of the machine: one input, carried out whole (R42, R53). -/

namespace Sys2Proof.Machine

/-- One step takes the oldest input: a command with its response, a reset, or an environment presented. -/
def step (s : State) : Host.Outcome State Fault Refusal := takeInput s

/-- The state in which the next step runs the command whose word is `w`. The block fetches nothing: the host presents command
words (R17, R50), so the word goes to the head of the inputs. Log entry 19. -/
def State.withFetchWord (s : State) (nbits w : Nat) : State :=
  s.presentWord (BitVec.ofNat 16 (w % 2 ^ nbits))

end Sys2Proof.Machine
end

