-- ==== Sys2Proof/Machine/Streams.lean ====
section
/-! DEFINITION. The streams as sequences of bits (R6, R34, R37): what the claims are stated in. No meaning reads them. -/

namespace Sys2Proof.Machine

/-- `bits(v[k-1:0])`: the low `k` bits, most significant first (R6). -/
def bitsLow {w : Nat} (v : BitVec w) : Nat → List Bool
  | 0 => []
  | k + 1 => v.getLsbD k :: bitsLow v k

/-- `bits(b)` for a byte (R6). -/
def byteBits (b : Byte) : List Bool := bitsLow b 8

/-- `bits(s)` for a byte sequence (R6, R34). -/
def streamBits (bs : List Byte) : List Bool := bs.flatMap byteBits

/-- `val(q)`: the number whose most significant bit is the first of the sequence (R6). -/
def val (q : List Bool) : Nat := q.foldl (fun x b => 2 * x + b.toNat) 0

/-- `Rem`: the bits the reader has not handed out (R37). -/
def ReaderSide.rem (r : ReaderSide) : List Bool :=
  bitsLow r.br.buf r.br.n.toNat ++ streamBits (r.src.bytes.drop r.src.pos)

/-- `Wr`: the bits the writer has laid down (R37). -/
def WriterSide.written (w : WriterSide) : List Bool :=
  streamBits w.snk.bytes ++ bitsLow w.bw.buf w.bw.n.toNat

/-- The pad of a stream of `k` bits: zeros to the next multiple of 8 (R40, R118). -/
def padOf (k : Nat) : List Bool := List.replicate ((8 - k % 8) % 8) false

/-- `rpos`: bits handed out since `RBIND` (R37). -/
def ReaderSide.rpos (r : ReaderSide) : Nat := 8 * r.src.pos - r.br.n.toNat

/-- `wpos`: bits laid down since `WBIND`, pad bits included (R37). -/
def WriterSide.wpos (w : WriterSide) : Nat := 8 * w.snk.bytes.length + w.bw.n.toNat

end Sys2Proof.Machine
end

