-- ==== Sys2Proof/Safety.lean ====
section
/-! DEFINITION. What claims are stated in: the invariants of both units, the tables of R136 and R140 as plain functions of the
command and the lifecycle state, the fields of a stream, and what a safe step is. -/

namespace Sys2Proof.Machine

/-- The reader's invariants: R23 (a) to (f) in order, then R18's range of `pos`, then what R32 and R81 make of `released`. -/
abbrev ReaderInv (r : ReaderSide) : Prop :=
  r.br.n.toNat ≤ 8 ∧
  (r.br.life = .bound → r.br.n = 0 → r.br.eof = true) ∧
  (r.br.life = .bound → r.br.eof = true → r.src.pos = r.src.bytes.length) ∧
  (r.br.life = .bound → 1 ≤ r.src.pos ∨ r.br.eof = true) ∧
  (r.br.life = .closed → r.br.n = 0 ∧ r.br.eof = true) ∧
  (r.br.life = .unbound → r.br.n = 0 ∧ r.br.eof = false) ∧
  (r.br.eof = true → r.br.n ≠ 8) ∧
  r.src.pos ≤ r.src.bytes.length ∧
  (r.br.life = .bound → r.src.released = false) ∧
  (r.br.life = .closed → r.src.released = true)

/-- The writer's invariants: R24 (a), (b), (c), and the half of (e) that a reset keeps (log entry 15). -/
abbrev WriterInv (w : WriterSide) : Prop :=
  w.bw.n.toNat ≤ 7 ∧
  w.bw.buf.toNat < 2 ^ w.bw.n.toNat ∧
  (w.bw.life ≠ .bound → w.bw.n = 0 ∧ w.bw.buf = 0x00) ∧
  (w.bw.life = .closed → w.snk.closed = true)

/-- R24 (e): the sink is closed exactly when the writer is. -/
abbrev SinkClosedExactly (w : WriterSide) : Prop := w.snk.closed = true ↔ w.bw.life = .closed

/-- The invariant of the whole machine. -/
abbrev MachineInv (s : State) : Prop := ReaderInv s.readerSide ∧ WriterInv s.writerSide

/-- A width outside 1 to 32: the cause of `ST_INVALID_ARG` (R132). -/
def badWidth : Instr → Bool
  | .rbind => false
  | .rdbit => false
  | .rdbyte => false
  | .rdshort => false
  | .rdint => false
  | .rdlong => false
  | .rdbits r => r == 0 || decide (33 ≤ r)
  | .rdall => false
  | .rstat => false
  | .rclose => false
  | .wbind => false
  | .wrbit => false
  | .wrbyte => false
  | .wrshort => false
  | .wrint => false
  | .wrlong => false
  | .wrbits r => r == 0 || decide (33 ≤ r)
  | .flush => false
  | .wstat => false
  | .wclose => false

/-- How many bits a data read of fixed length asks for (R57, column W; `r` for `RDBITS r`). -/
def readWidthOf : Instr → Option Nat
  | .rbind => none
  | .rdbit => some 1
  | .rdbyte => some 8
  | .rdshort => some 16
  | .rdint => some 32
  | .rdlong => some 64
  | .rdbits r => some r
  | .rdall => none
  | .rstat => none
  | .rclose => none
  | .wbind => none
  | .wrbit => none
  | .wrbyte => none
  | .wrshort => none
  | .wrint => none
  | .wrlong => none
  | .wrbits _ => none
  | .flush => none
  | .wstat => none
  | .wclose => none

/-- How many bits a write lays down (R57, column W). -/
def writeWidthOf : Instr → Option Nat
  | .rbind => none
  | .rdbit => none
  | .rdbyte => none
  | .rdshort => none
  | .rdint => none
  | .rdlong => none
  | .rdbits _ => none
  | .rdall => none
  | .rstat => none
  | .rclose => none
  | .wbind => none
  | .wrbit => some 1
  | .wrbyte => some 8
  | .wrshort => some 16
  | .wrint => some 32
  | .wrlong => some 64
  | .wrbits r => some r
  | .flush => none
  | .wstat => none
  | .wclose => none

/-- How many low bits of `rdata` a successful command may set (R54, R57); 0 where `rdata = 0`. -/
def resultWidth : Instr → Nat
  | .rbind => 0
  | .rdbit => 1
  | .rdbyte => 8
  | .rdshort => 16
  | .rdint => 32
  | .rdlong => 64
  | .rdbits r => r
  | .rdall => 0
  | .rstat => 8
  | .rclose => 0
  | .wbind => 0
  | .wrbit => 0
  | .wrbyte => 0
  | .wrshort => 0
  | .wrint => 0
  | .wrlong => 0
  | .wrbits _ => 0
  | .flush => 0
  | .wstat => 8
  | .wclose => 0

/-- The lifecycle state of the unit a command belongs to. -/
def lifeOf (port : Port) (s : State) : Life :=
  match port with
  | .reader => s.br.life
  | .writer => s.bw.life

/-- The `ST_STATE` entries of R140's table, widths apart. -/
def stateRefused (i : Instr) (l : Life) : Bool :=
  match i with
  | .rbind => l != .unbound
  | .rdbit => l != .bound
  | .rdbyte => l != .bound
  | .rdshort => l != .bound
  | .rdint => l != .bound
  | .rdlong => l != .bound
  | .rdbits _ => l != .bound
  | .rdall => l != .bound
  | .rstat => false
  | .rclose => l == .unbound
  | .wbind => l != .unbound
  | .wrbit => l != .bound
  | .wrbyte => l != .bound
  | .wrshort => l != .bound
  | .wrint => l != .bound
  | .wrlong => l != .bound
  | .wrbits _ => l != .bound
  | .flush => l != .bound
  | .wstat => false
  | .wclose => l == .unbound

/-- The status of a response to the newest command on a port, if any was given. -/
def lastStatus (port : Port) (s : State) : Option Status :=
  match port with
  | .reader => s.brRsp.getLast?.map (·.status)
  | .writer => s.bwRsp.getLast?.map (·.status)

/-- A step that neither faults nor is refused. -/
def SafeStep (s : State) : Prop := ∃ t, step s = .next t

/-- The same next state but for a change that the command cannot see. -/
def mapNext (g : State → State) (o : Outcome) : Outcome :=
  match o with
  | .next t => .next (g t)
  | .fault f => .fault f
  | .refused r => .refused r

/-- The command that `i` stands for, as the transaction that carries it (R50). -/
def commandInput (i : Instr) (wdata : Data) : Input := Input.command i.port (encode i) wdata

/-- One field of a stream: a pattern and how it is written and read (R119). -/
inductive Field where
  | bit (v : BitVec 1)
  | byte (v : BitVec 8)
  | short (v : BitVec 16)
  | int (v : BitVec 32)
  | long (v : BitVec 64)
  | bits (r : Nat) (v : Data)
deriving DecidableEq, Repr

/-- A field of variable width has a legal one (R56). -/
def Field.legal : Field → Bool
  | .bits r _ => decide (widthLegal r)
  | _ => true

def Field.width : Field → Nat
  | .bit _ => 1
  | .byte _ => 8
  | .short _ => 16
  | .int _ => 32
  | .long _ => 64
  | .bits r _ => r

/-- The operand a host puts on `wdata` for the field. -/
def Field.operand : Field → Data
  | .bit v => onBus v
  | .byte v => onBus v
  | .short v => onBus v
  | .int v => onBus v
  | .long v => v
  | .bits _ v => v

def Field.writer : Field → Instr
  | .bit _ => .wrbit
  | .byte _ => .wrbyte
  | .short _ => .wrshort
  | .int _ => .wrint
  | .long _ => .wrlong
  | .bits r _ => .wrbits r

def Field.reader : Field → Instr
  | .bit _ => .rdbit
  | .byte _ => .rdbyte
  | .short _ => .rdshort
  | .int _ => .rdint
  | .long _ => .rdlong
  | .bits r _ => .rdbits r

/-- The bits a field puts into the stream: the low `width` bits of its operand, most significant first (R35, R55). -/
def Field.bitsOf (f : Field) : List Bool := bitsLow f.operand f.width

/-- The inputs that write a stream of fields and close it: `WBIND`, one write a field, `WCLOSE` (R110, R119). -/
def writeInputs (fs : List Field) : List Input :=
  commandInput .wbind 0 :: (fs.map fun f => commandInput f.writer f.operand) ++ [commandInput .wclose 0]

/-- The inputs that read a stream of fields: `RBIND`, one read a field (R119). -/
def readInputs (fs : List Field) : List Input :=
  commandInput .rbind 0 :: fs.map fun f => commandInput f.reader 0

/-- The bits of a stream cut into pieces of the given widths, from its start (R119). -/
def slices : List Nat → List Bool → List (List Bool)
  | [], _ => []
  | k :: ks, q => q.take k :: slices ks (q.drop k)

/-- An input of the reader's side: its channel, its reset, its source. -/
def Input.isReader : Input → Bool
  | .readerCmd _ _ => true
  | .brRst => true
  | .presentSource _ => true
  | .writerCmd _ _ => false
  | .bwRst => false
  | .presentSink => false

end Sys2Proof.Machine
end

