-- ==== Sys2Proof/Certificates/Slice0/Obligations.lean ====
section
/-! DEFINITION. The statements for the provers. Each docstring names the rules of spec/ it formalises. -/

open Sys2Proof Sys2Proof.Machine

/-! ### The command word (30_encoding.md) -/

/-- Every well-formed command is what its word decodes to: no field of the encoding is dropped (R52, R57). -/
def Obligations.DecodeOfEncodeIsIdentity : Prop :=
  ∀ i : Instr, i.WellFormed → decode (encode i) = .ok i

/-- Every word that decodes is the word of the command it decodes to, so each command has one word (R57, R59). -/
def Obligations.EncodeOfDecodeIsIdentity : Prop :=
  ∀ (w : Cmd) (i : Instr), decode w = .ok i → i.WellFormed ∧ encode i = w

/-- The twenty words of the opcode map, written out, and the pseudo-operations of R61. -/
def Obligations.WordsOfTheOpcodeMapDecode : Prop :=
  decode 0x1000 = .ok .rbind ∧ decode 0x1100 = .ok .rdbit ∧ decode 0x1200 = .ok .rdbyte ∧ decode 0x1300 = .ok .rdshort ∧
  decode 0x1400 = .ok .rdint ∧ decode 0x1500 = .ok .rdlong ∧ decode 0x1608 = .ok (.rdbits 8) ∧ decode 0x16FF = .ok (.rdbits 255) ∧
  decode 0x1700 = .ok .rdall ∧ decode 0x1800 = .ok .rstat ∧ decode 0x1900 = .ok .rclose ∧
  decode 0x2000 = .ok .wbind ∧ decode 0x2100 = .ok .wrbit ∧ decode 0x2200 = .ok .wrbyte ∧ decode 0x2300 = .ok .wrshort ∧
  decode 0x2400 = .ok .wrint ∧ decode 0x2500 = .ok .wrlong ∧ decode 0x2600 = .ok (.wrbits 0) ∧ decode 0x2620 = .ok (.wrbits 32) ∧
  decode 0x2700 = .ok .flush ∧ decode 0x2800 = .ok .wstat ∧ decode 0x2900 = .ok .wclose ∧
  decode 0x160C = .ok Instr.rdcode ∧ decode 0x260C = .ok Instr.wrcode

/-- The words that are no command are exactly those of R58: a class that is not 1 or 2, an `op` above 9, or an `op` other than 6
with `arg` not 0. The fields are read here by division, not by the model's own slices. -/
def Obligations.UnlistedWordsAreExactlyRejected : Prop :=
  ∀ w : Cmd, (∃ e, decode w = .error e) ↔
    ((w.toNat / 4096 ≠ 1 ∧ w.toNat / 4096 ≠ 2) ∨ 9 < w.toNat / 256 % 16 ∨ (w.toNat / 256 % 16 ≠ 6 ∧ w.toNat % 256 ≠ 0))

/-! ### The step (30_encoding.md, 60_exceptions.md, 70_reset_and_hazards.md) -/

/-- A word at the head of the inputs that decodes to a command of the channel's unit: the step is that command's meaning, with the
input taken away and the operand on the unit's lines (R50, R53). -/
def Obligations.StepRunsTheDecodedCommand : Prop :=
  ∀ (s : State) (w : Cmd) (d : Data) (rest : List Input) (i : Instr), decode w = .ok i →
    (i.port = .reader → s.inputs = .readerCmd w d :: rest → step s = exec i { s with inputs := rest, brWdata := d }) ∧
    (i.port = .writer → s.inputs = .writerCmd w d :: rest → step s = exec i { s with inputs := rest, bwWdata := d })

/-- R134: a word that is no command of the unit it arrives at is answered `ST_ILLEGAL`; nothing else changes, in every lifecycle
state. -/
def Obligations.IllegalWordIsAnsweredAndChangesNothing : Prop :=
  ∀ (s : State) (w : Cmd) (d : Data) (rest : List Input),
    ((∀ i, decode w = .ok i → i.port ≠ .reader) → s.inputs = .readerCmd w d :: rest →
      step s = .next { s with inputs := rest, brRsp := s.brRsp ++ [{ status := .illegal, rdata := 0, rbytes := [] }] }) ∧
    ((∀ i, decode w = .ok i → i.port ≠ .writer) → s.inputs = .writerCmd w d :: rest →
      step s = .next { s with inputs := rest, bwRsp := s.bwRsp ++ [{ status := .illegal, rdata := 0 }] })

/-- R25: the reset state, and what each reset input does from any state: the unit's registers take their reset values and nothing
else changes. `RSTAT` and `WSTAT` then read 0x20 and 0x00. -/
def Obligations.ResetGivesTheResetValues : Prop :=
  (State.reset.br = { buf := 0x00, n := 0, eof := false, life := .unbound } ∧
    State.reset.bw = { buf := 0x00, n := 0, life := .unbound } ∧
    State.reset.src.pos = 0 ∧ State.reset.src.released = false ∧
    State.reset.snk = { bytes := [], closed := false } ∧
    State.reset.br.rstat = 0x20 ∧ State.reset.bw.wstat = 0x00) ∧
  ∀ (s : State) (rest : List Input),
    (s.inputs = .brRst :: rest →
      step s = .next { s with inputs := rest, br := { buf := 0x00, n := 0, eof := false, life := .unbound } }) ∧
    (s.inputs = .bwRst :: rest → step s = .next { s with inputs := rest, bw := { buf := 0x00, n := 0, life := .unbound } })

/-- A unit with no command in hand holds its state (R141; that this is a step of its own is the model's choice, log entry 3). -/
def Obligations.StepHoldsWhenNothingWaits : Prop :=
  ∀ s : State, s.inputs = [] → step s = .next s

/-- Presenting a source or a sink puts it in its start state while the unit is `UNBOUND`, and has no meaning otherwise: the model's
own choice, DESIGN CHOICE of log entry 8 (it rests on R152 step 2 and on "fixed before `RBIND` and never changed" of R18). -/
def Obligations.PresentingTheEnvironment : Prop :=
  ∀ (s : State) (bs : List Byte) (rest : List Input),
    (s.inputs = .presentSource bs :: rest →
      (s.br.life = .unbound → step s = .next { s with inputs := rest, src := { bytes := bs, pos := 0, released := false } }) ∧
      (s.br.life ≠ .unbound → step s = .refused .sourceInUse)) ∧
    (s.inputs = .presentSink :: rest →
      (s.bw.life = .unbound → step s = .next { s with inputs := rest, snk := { bytes := [], closed := false } }) ∧
      (s.bw.life ≠ .unbound → step s = .refused .sinkInUse))

/-- R136: the status of a response to any word on either channel is the first that applies of `ST_ILLEGAL`, `ST_INVALID_ARG`,
`ST_STATE`; only a data read past all three may answer `ST_EOS`. -/
def Obligations.StatusFollowsThePriority : Prop :=
  ∀ (s t : State) (p : Port) (w : Cmd) (d : Data) (rest : List Input),
    s.inputs = Input.command p w d :: rest → step s = .next t →
    ∃ st, lastStatus p t = some st ∧
      ((∀ i, decode w = .ok i → i.port ≠ p) → st = .illegal) ∧
      ∀ i, decode w = .ok i → i.port = p →
        (badWidth i = true → st = .invalidArg) ∧
        (badWidth i = false → stateRefused i (lifeOf p s) = true → st = .state) ∧
        (badWidth i = false → stateRefused i (lifeOf p s) = false →
          st = .ok ∨ (st = .eos ∧ ((readWidthOf i).isSome = true ∨ i = .rdall)))

/-! ### Responses and frames (30_encoding.md, 10_state.md, 60_exceptions.md) -/

/-- R54: the codes of the statuses; a command gives exactly one response on its own channel; `rdata` holds the result zero-extended
from its width, the status register for `RSTAT` and `WSTAT`, and 0 for every other command and on every error; `rbytes` is empty
but for a successful `RDALL`. -/
def Obligations.ResponsesHaveTheRuledForm : Prop :=
  (Status.code .ok = 0 ∧ Status.code .eos = 1 ∧ Status.code .invalidArg = 2 ∧ Status.code .state = 3 ∧ Status.code .illegal = 4) ∧
  (∀ (i : Instr) (s t : State), i.port = .reader → exec i s = .next t →
    ∃ q : ReaderResponse, t.brRsp = s.brRsp ++ [q] ∧ t.bwRsp = s.bwRsp ∧
      (q.status ≠ .ok → q.rdata = 0) ∧ q.rdata.toNat < 2 ^ resultWidth i ∧
      (i = .rstat → q.status = .ok ∧ q.rdata = s.br.rstat.setWidth 64) ∧
      (q.rbytes ≠ [] → i = .rdall ∧ q.status = .ok)) ∧
  (∀ (i : Instr) (s t : State), i.port = .writer → exec i s = .next t →
    ∃ q : WriterResponse, t.bwRsp = s.bwRsp ++ [q] ∧ t.brRsp = s.brRsp ∧
      (q.status ≠ .ok → q.rdata = 0) ∧ q.rdata.toNat < 2 ^ resultWidth i ∧
      (i = .wstat → q.status = .ok ∧ q.rdata = s.bw.wstat.setWidth 64))

/-- The frame of the ten reader commands (R17, R18, R27): the writer's side, both operand lines, the writer's responses, the waiting
inputs and the source's bytes stay; the source only moves on; only `RCLOSE` releases it; only `RBIND` and `RCLOSE` change the
lifecycle; `RSTAT` changes nothing but the responses; `RCLOSE` leaves `buf` and `pos`. -/
def Obligations.ReaderCommandsTouchOnlyTheReader : Prop :=
  ∀ (i : Instr) (s t : State), i.port = .reader → exec i s = .next t →
    t.bw = s.bw ∧ t.snk = s.snk ∧ t.brWdata = s.brWdata ∧ t.bwWdata = s.bwWdata ∧ t.bwRsp = s.bwRsp ∧ t.inputs = s.inputs ∧
    t.src.bytes = s.src.bytes ∧ s.src.pos ≤ t.src.pos ∧
    (i ≠ .rclose → t.src.released = s.src.released) ∧
    (i ≠ .rbind → i ≠ .rclose → t.br.life = s.br.life) ∧
    (i = .rstat → t.br = s.br ∧ t.src = s.src) ∧
    (i = .rclose → t.br.buf = s.br.buf ∧ t.src.pos = s.src.pos)

/-- The frame of the ten writer commands (R17, R19, R24 (d), R27): the reader's side, both operand lines, the reader's responses
and the waiting inputs stay; the sink only grows at its end; only `WCLOSE` closes it; only `WBIND` and `WCLOSE` change the
lifecycle; `WSTAT` changes nothing but the responses; `WBIND` leaves the sink. -/
def Obligations.WriterCommandsTouchOnlyTheWriter : Prop :=
  ∀ (i : Instr) (s t : State), i.port = .writer → exec i s = .next t →
    t.br = s.br ∧ t.src = s.src ∧ t.brWdata = s.brWdata ∧ t.bwWdata = s.bwWdata ∧ t.brRsp = s.brRsp ∧ t.inputs = s.inputs ∧
    s.snk.bytes <+: t.snk.bytes ∧
    (i ≠ .wclose → t.snk.closed = s.snk.closed) ∧
    (i ≠ .wbind → i ≠ .wclose → t.bw.life = s.bw.life) ∧
    (i = .wstat → t.bw = s.bw ∧ t.snk = s.snk) ∧
    (i = .wbind → t.snk = s.snk)

/-! ### Errors and lifecycle (60_exceptions.md) -/

/-- R132: a width outside 1 to 32 is answered `ST_INVALID_ARG` and changes nothing but the responses, in every state. -/
def Obligations.WidthOutsideOneTo32IsInvalid : Prop :=
  ∀ (s : State) (r : Nat), (r = 0 ∨ 33 ≤ r) →
    exec (.rdbits r) s = .next { s with brRsp := s.brRsp ++ [{ status := .invalidArg, rdata := 0, rbytes := [] }] } ∧
    exec (.wrbits r) s = .next { s with bwRsp := s.bwRsp ++ [{ status := .invalidArg, rdata := 0 }] }

/-- R133: a command that the unit's lifecycle state does not allow is answered `ST_STATE` and changes nothing but the responses. -/
def Obligations.WrongLifecycleIsAnsweredState : Prop :=
  ∀ (i : Instr) (s : State), badWidth i = false → stateRefused i (lifeOf i.port s) = true →
    exec i s =
      match i.port with
      | .reader => .next { s with brRsp := s.brRsp ++ [{ status := .state, rdata := 0, rbytes := [] }] }
      | .writer => .next { s with bwRsp := s.bwRsp ++ [{ status := .state, rdata := 0 }] }

/-- The lifecycle moves of R13, R16 and R140, over every step: only a reset leads to `UNBOUND` or out of `CLOSED`; only a bind from
`UNBOUND` leads to `BOUND`; only a close from `BOUND` leads to `CLOSED`. -/
def Obligations.LifecycleMovesOnlyAsRuled : Prop :=
  ∀ s t : State, step s = .next t →
    (t.br.life ≠ s.br.life →
      (t.br.life = .unbound ∧ ∃ rest, s.inputs = .brRst :: rest) ∨
      (s.br.life = .unbound ∧ t.br.life = .bound ∧ ∃ d rest, s.inputs = .readerCmd 0x1000 d :: rest) ∨
      (s.br.life = .bound ∧ t.br.life = .closed ∧ ∃ d rest, s.inputs = .readerCmd 0x1900 d :: rest)) ∧
    (t.bw.life ≠ s.bw.life →
      (t.bw.life = .unbound ∧ ∃ rest, s.inputs = .bwRst :: rest) ∨
      (s.bw.life = .unbound ∧ t.bw.life = .bound ∧ ∃ d rest, s.inputs = .writerCmd 0x2000 d :: rest) ∨
      (s.bw.life = .bound ∧ t.bw.life = .closed ∧ ∃ d rest, s.inputs = .writerCmd 0x2900 d :: rest))

/-- No command is refused, and one faults only where the environment broke a precondition of R32 or R33 (log entries 6 and 7). -/
def Obligations.CommandsStopOnlyOnABrokenPrecondition : Prop :=
  ∀ (i : Instr) (s : State),
    (∀ f, exec i s = .fault f →
      (f = .sourceReleased ∧ i.port = .reader ∧ s.src.released = true) ∨
      (f = .sinkClosed ∧ i.port = .writer ∧ s.snk.closed = true)) ∧
    (∀ q, exec i s ≠ .refused q)

/-- Where the preconditions are broken the access stops: a bind of a released source, and a write that completes a byte for a closed
sink. The spec gives the accesses no effect there; the named stop is the model's, DESIGN CHOICE of log entries 6 and 7. -/
def Obligations.BrokenPreconditionStopsTheAccess : Prop :=
  ∀ s : State,
    (s.br.life = .unbound → s.src.released = true → exec .rbind s = .fault .sourceReleased) ∧
    (s.bw.life = .bound → s.snk.closed = true → s.bw.n = 7 → exec .wrbit s = .fault .sinkClosed) ∧
    (s.bw.life = .bound → s.snk.closed = true → s.bw.n ≠ 0 → exec .flush s = .fault .sinkClosed)

/-- Every command completes, whatever its operands: from every state that keeps the invariants, with a source not yet released if
the reader is not bound yet and a sink that is open unless the writer closed it (R32, R33, R152 step 2). -/
def Obligations.EveryCommandAnswers : Prop :=
  ∀ (i : Instr) (s : State), MachineInv s → (s.br.life = .unbound → s.src.released = false) →
    SinkClosedExactly s.writerSide → ∃ t, exec i s = .next t

/-! ### Invariants (10_state.md) -/

/-- The invariants hold at reset (R23, R24, R25). -/
def Obligations.ResetMeetsTheInvariants : Prop :=
  MachineInv State.reset ∧ SinkClosedExactly State.reset.writerSide

/-- R23: every reader command, whatever its status, keeps the invariants (a) to (f); and, for the first half of (f), `eof = 1` with
`0 < n < 8` does occur. -/
def Obligations.ReaderCommandsKeepTheReaderInvariants : Prop :=
  ReaderInv State.reset.readerSide ∧
  (∀ (i : Instr) (s t : State), ReaderInv s.readerSide → exec i s = .next t → ReaderInv t.readerSide) ∧
  ∃ s t : State, ReaderInv s.readerSide ∧ exec .rdbyte s = .next t ∧ t.br.eof = true ∧ 0 < t.br.n.toNat ∧ t.br.n.toNat < 8

/-- R24: every writer command, whatever its status, keeps the invariants, the exact form of (e) among them, and only appends to
the sink. -/
def Obligations.WriterCommandsKeepTheWriterInvariants : Prop :=
  (WriterInv State.reset.writerSide ∧ SinkClosedExactly State.reset.writerSide) ∧
  ∀ (i : Instr) (s t : State), WriterInv s.writerSide ∧ SinkClosedExactly s.writerSide → exec i s = .next t →
    (WriterInv t.writerSide ∧ SinkClosedExactly t.writerSide) ∧ s.snk.bytes <+: t.snk.bytes

/-- From every state that meets the invariants of both units, every step (a command of either unit, an illegal word, a reset, an
environment presented, or nothing) leaves one that meets them (R23, R24). -/
def Obligations.EveryStepKeepsTheInvariants : Prop :=
  ∀ s t : State, MachineInv s → step s = .next t → MachineInv t

/-- R12: once `eof` is set no reader command but `RBIND` clears it or asks the source again. -/
def Obligations.EndOfStreamFlagIsSticky : Prop :=
  ∀ (i : Instr) (s t : State), i ≠ .rbind → s.br.eof = true → exec i s = .next t →
    t.br.eof = true ∧ t.src.pos = s.src.pos

/-! ### Reader commands (40_reader_ops.md, 42_stream_format_and_laws.md) -/

/-- `RBIND` from `UNBOUND` with a source that is not released: the first byte is fetched, or the source is found empty; the answer is
`ST_OK` either way (R71). -/
def Obligations.BindFetchesTheFirstByte : Prop :=
  ∀ s : State, s.br.life = .unbound → s.src.released = false →
    (∀ b, s.src.bytes[s.src.pos]? = some b →
      exec .rbind s = .next { s with
          br := { buf := b, n := 8, eof := false, life := .bound },
          src := { s.src with pos := s.src.pos + 1 }, brRsp := s.brRsp ++ [{ status := .ok, rdata := 0, rbytes := [] }] }) ∧
    (s.src.bytes[s.src.pos]? = none →
      exec .rbind s = .next { s with
          br := { buf := 0x00, n := 0, eof := true, life := .bound },
          brRsp := s.brRsp ++ [{ status := .ok, rdata := 0, rbytes := [] }] })

/-- `RDBIT` on the registers: the bit is `buf[n-1]`; taking the last resident bit refills in the same command, and if the source is
exhausted, or was, `n` stays 0 with `eof` set; with `n = 0` it answers `ST_EOS` and changes nothing (R72). -/
def Obligations.BitReadOnTheRegisters : Prop :=
  ∀ s : State, s.br.life = .bound →
    (s.br.n = 0 → exec .rdbit s = .next { s with brRsp := s.brRsp ++ [{ status := .eos, rdata := 0, rbytes := [] }] }) ∧
    ∀ m : Nat, s.br.n.toNat = m + 1 → ∀ d : Data, d = BitVec.ofNat 64 (s.br.buf.getLsbD m).toNat →
      (0 < m → exec .rdbit s = .next { s with
          br := { s.br with n := BitVec.ofNat 4 m },
          brRsp := s.brRsp ++ [{ status := .ok, rdata := d, rbytes := [] }] }) ∧
      (m = 0 → s.br.eof = false → s.src.released = false → ∀ b, s.src.bytes[s.src.pos]? = some b →
        exec .rdbit s = .next { s with
            br := { s.br with buf := b, n := 8 }, src := { s.src with pos := s.src.pos + 1 },
            brRsp := s.brRsp ++ [{ status := .ok, rdata := d, rbytes := [] }] }) ∧
      (m = 0 → s.br.eof = false → s.src.released = false → s.src.bytes[s.src.pos]? = none →
        exec .rdbit s = .next { s with
            br := { s.br with n := 0, eof := true },
            brRsp := s.brRsp ++ [{ status := .ok, rdata := d, rbytes := [] }] }) ∧
      (m = 0 → s.br.eof = true →
        exec .rdbit s = .next { s with
            br := { s.br with n := 0 },
            brRsp := s.brRsp ++ [{ status := .ok, rdata := d, rbytes := [] }] })

/-- R114: `RDBIT` and `RDBITS r` on the remaining bits. -/
def Obligations.BitAndWidthReadsFollowTheRemainingBits : Prop :=
  ∀ s : State, ReaderInv s.readerSide → s.br.life = .bound → ∀ q : List Bool, q = s.readerSide.rem →
    (1 ≤ q.length → ∃ r, exec .rdbit s = .next ((s.setReader r).answerReader
        { status := .ok, rdata := BitVec.ofNat 64 (val (q.take 1)), rbytes := [] }) ∧ r.rem = q.drop 1) ∧
    (q.length = 0 → ∃ r, exec .rdbit s = .next ((s.setReader r).answerReader
        { status := .eos, rdata := 0, rbytes := [] }) ∧ r.rem = []) ∧
    ∀ k : Nat, 1 ≤ k → k ≤ 32 →
      (k ≤ q.length → ∃ r, exec (.rdbits k) s = .next ((s.setReader r).answerReader
        { status := .ok, rdata := BitVec.ofNat 64 (val (q.take k)), rbytes := [] }) ∧ r.rem = q.drop k) ∧
      (q.length < k → k ≠ 8 → k ≠ 16 → k ≠ 32 → ∃ r, exec (.rdbits k) s = .next ((s.setReader r).answerReader
        { status := .eos, rdata := 0, rbytes := [] }) ∧ r.rem = []) ∧
      (q.length < k → k = 8 ∨ k = 16 ∨ k = 32 → ∃ r, exec (.rdbits k) s = .next ((s.setReader r).answerReader
        { status := .eos, rdata := 0, rbytes := [] }) ∧ r.rem = q.drop (8 * (q.length / 8)))

/-- R115: `RDBYTE`, `RDSHORT`, `RDINT` and `RDLONG` on the remaining bits. -/
def Obligations.ByteReadsFollowTheRemainingBits : Prop :=
  ∀ s : State, ReaderInv s.readerSide → s.br.life = .bound → ∀ q : List Bool, q = s.readerSide.rem →
    ∀ (i : Instr) (k : Nat), (i, k) ∈ [(Instr.rdbyte, 1), (.rdshort, 2), (.rdint, 4), (.rdlong, 8)] →
      (8 * k ≤ q.length → ∃ r, exec i s = .next ((s.setReader r).answerReader
        { status := .ok, rdata := BitVec.ofNat 64 (val (q.take (8 * k))), rbytes := [] }) ∧ r.rem = q.drop (8 * k)) ∧
      (q.length < 8 * k → ∃ r, exec i s = .next ((s.setReader r).answerReader
        { status := .eos, rdata := 0, rbytes := [] }) ∧ r.rem = q.drop (8 * (q.length / 8)))

/-- R116: `RDALL` on the remaining bits, and straight after `RBIND`. -/
def Obligations.ReadAllFollowsTheRemainingBits : Prop :=
  (∀ s : State, ReaderInv s.readerSide → s.br.life = .bound → ∀ q : List Bool, q = s.readerSide.rem →
    (q.length % 8 = 0 → ∃ r bs, exec .rdall s = .next ((s.setReader r).answerReader
        { status := .ok, rdata := 0, rbytes := bs }) ∧ streamBits bs = q ∧ r.rem = []) ∧
    (q.length % 8 ≠ 0 → ∃ r, exec .rdall s = .next ((s.setReader r).answerReader
        { status := .eos, rdata := 0, rbytes := [] }) ∧ r.rem = q.drop (8 * (q.length / 8)))) ∧
  ∀ s : State, s.br.life = .unbound → s.src.pos = 0 → s.src.released = false →
    ∃ t u, exec .rbind s = .next t ∧ exec .rdall t = .next u ∧
      u.brRsp = s.brRsp ++ [{ status := .ok, rdata := 0, rbytes := [] }, { status := .ok, rdata := 0, rbytes := s.src.bytes }]

/-- Reads act on the remaining bits alone: two bound readers with the same `Rem`, whatever their buffers, counts, flags and sources,
give the same response to the same read and are left with the same `Rem` (R113). -/
def Obligations.ReadsDependOnTheRemainingBitsAlone : Prop :=
  ∀ (i : Instr) (s s' t t' : State), (readWidthOf i).isSome = true ∨ i = .rdall →
    ReaderInv s.readerSide → s.br.life = .bound → ReaderInv s'.readerSide → s'.br.life = .bound →
    s.readerSide.rem = s'.readerSide.rem → exec i s = .next t → exec i s' = .next t' →
    t.brRsp.getLast? = t'.brRsp.getLast? ∧ t.readerSide.rem = t'.readerSide.rem

/-- R39, both sentences: a byte read at a non-aligned offset splices the resident bits with the head of the next byte and keeps the
count; a byte write at a non-aligned offset completes the pending byte and keeps the count. -/
def Obligations.UnalignedBytesAreSpliced : Prop :=
  (∀ (s : State) (b : Byte), s.br.life = .bound → 0 < s.br.n.toNat → s.br.n.toNat < 8 → s.br.eof = false →
    s.src.released = false → s.src.bytes[s.src.pos]? = some b →
    ∃ x : Byte, exec .rdbyte s = .next { s with
        br := { s.br with buf := b }, src := { s.src with pos := s.src.pos + 1 },
        brRsp := s.brRsp ++ [{ status := .ok, rdata := x.setWidth 64, rbytes := [] }] } ∧
      byteBits x = bitsLow s.br.buf s.br.n.toNat ++ (byteBits b).take (8 - s.br.n.toNat)) ∧
  (∀ s : State, s.bw.life = .bound → 0 < s.bw.n.toNat → WriterInv s.writerSide → s.snk.closed = false →
    ∃ x y : Byte, exec .wrbyte s = .next { s with
        bw := { s.bw with buf := x }, snk := { s.snk with bytes := s.snk.bytes ++ [y] },
        bwRsp := s.bwRsp ++ [{ status := .ok, rdata := 0 }] } ∧
      byteBits y = bitsLow s.bw.buf s.bw.n.toNat ++ (bitsLow s.bwWdata 8).take (8 - s.bw.n.toNat) ∧
      bitsLow x s.bw.n.toNat = bitsLow s.bwWdata s.bw.n.toNat)

/-- R131: `ST_EOS` exactly when too few bits remain; on the registers for `RDBIT` and `RDBYTE`; never from another command; `eof`
after it; the remaining bits never grow, and a read as wide as one that failed, or wider, fails after it; a narrower one may
succeed. -/
def Obligations.EndOfStreamExactlyWhenTooFewBitsRemain : Prop :=
  (∀ (i : Instr) (s t : State), i.port = .writer → exec i s = .next t → lastStatus .writer t ≠ some .eos) ∧
  (∃ s t u : State, ReaderInv s.readerSide ∧ exec .rdbyte s = .next t ∧ lastStatus .reader t = some .eos ∧
    exec .rdbit t = .next u ∧ lastStatus .reader u = some .ok) ∧
  ∀ (i : Instr) (s t : State), i.port = .reader → ReaderInv s.readerSide → exec i s = .next t →
    (s.br.life = .bound → badWidth i = false → ∀ k, readWidthOf i = some k →
      (lastStatus .reader t = some .eos ↔ s.readerSide.rem.length < k)) ∧
    (s.br.life = .bound → i = .rdall → (lastStatus .reader t = some .eos ↔ s.readerSide.rem.length % 8 ≠ 0)) ∧
    (s.br.life = .bound → i = .rdbit → (lastStatus .reader t = some .eos ↔ s.br.n = 0)) ∧
    (s.br.life = .bound → i = .rdbyte → (lastStatus .reader t = some .eos ↔
      s.br.n = 0 ∨ (0 < s.br.n.toNat ∧ s.br.n.toNat < 8 ∧ (s.br.eof = true ∨ s.src.pos = s.src.bytes.length)))) ∧
    (i = .rbind ∨ i = .rstat ∨ i = .rclose → lastStatus .reader t ≠ some .eos) ∧
    (lastStatus .reader t = some .eos → t.br.eof = true) ∧
    (s.br.life = .bound → t.readerSide.rem.length ≤ s.readerSide.rem.length) ∧
    (s.br.life = .bound → badWidth i = false → lastStatus .reader t = some .eos →
      ∀ (j : Instr) (u : State) (k m : Nat), readWidthOf i = some k → readWidthOf j = some m → k ≤ m → badWidth j = false →
        exec j t = .next u → lastStatus .reader u = some .eos)

/-- A byte read that succeeds is eight bit reads: the same bits and the same state left, and it succeeds exactly when they all
would (R73, corner cases). -/
def Obligations.ByteReadIsEightBitReads : Prop :=
  ∀ (r r' : ReaderSide) (b : Byte), ReaderInv r → r.br.life = .bound →
    (readByte r = .ok b r' ↔ readLoop 8 0 r = .ok (b.setWidth 32) r')

/-- R21 and R22: the layouts of the status registers, read from the responses of `RSTAT` and `WSTAT`, which complete in every state
and change nothing else. -/
def Obligations.StatusRegistersAreViews : Prop :=
  ∀ s : State,
    (∃ d : Data, exec .rstat s = .next { s with brRsp := s.brRsp ++ [{ status := .ok, rdata := d, rbytes := [] }] } ∧
      d.extractLsb' 0 4 = s.br.n ∧ d.getLsbD 4 = s.br.eof ∧ d.getLsbD 5 = decide (s.br.n = 0) ∧
      d.toNat / 64 = match s.br.life with | .unbound => 0 | .bound => 1 | .closed => 2) ∧
    (∃ d : Data, exec .wstat s = .next { s with bwRsp := s.bwRsp ++ [{ status := .ok, rdata := d }] } ∧
      d.extractLsb' 0 4 = s.bw.n ∧ d.extractLsb' 4 2 = 0 ∧
      d.toNat / 64 = match s.bw.life with | .unbound => 0 | .bound => 1 | .closed => 2)

/-- `RCLOSE` from `BOUND` releases the source and discards the resident bits; a second close answers `ST_OK` and does nothing, in
either unit (R81, R79 step 6, R98 step 6). -/
def Obligations.ReaderCloseReleasesAndRecloseIsNothing : Prop :=
  ∀ s : State,
    (s.br.life = .bound → exec .rclose s = .next { s with
        br := { s.br with n := 0, eof := true, life := .closed },
        src := { s.src with released := true }, brRsp := s.brRsp ++ [{ status := .ok, rdata := 0, rbytes := [] }] }) ∧
    (s.br.life = .closed → exec .rclose s = .next { s with brRsp := s.brRsp ++ [{ status := .ok, rdata := 0, rbytes := [] }] }) ∧
    (s.bw.life = .closed → exec .wclose s = .next { s with bwRsp := s.bwRsp ++ [{ status := .ok, rdata := 0 }] })

/-! ### Writer commands (41_writer_ops.md, 42_stream_format_and_laws.md) -/

/-- `WBIND` from `UNBOUND`: an empty accumulator, bound, and no stream access (R90). -/
def Obligations.BindEmptiesTheWriter : Prop :=
  ∀ s : State, s.bw.life = .unbound →
    exec .wbind s = .next { s with
        bw := { buf := 0x00, n := 0, life := .bound },
        bwRsp := s.bwRsp ++ [{ status := .ok, rdata := 0 }] }

/-- `WRBIT` on the registers: the bit enters at bit 0; the eighth bit sends the byte and empties the accumulator in the same command
(R91). -/
def Obligations.BitWriteOnTheRegisters : Prop :=
  ∀ s : State, s.bw.life = .bound →
    (s.bw.n.toNat < 7 → s.bw.buf.toNat < 128 →
      ∃ b : Byte, exec .wrbit s = .next { s with
          bw := { s.bw with buf := b, n := s.bw.n + 1 },
          bwRsp := s.bwRsp ++ [{ status := .ok, rdata := 0 }] } ∧
        b.toNat = 2 * s.bw.buf.toNat + (s.bwWdata.getLsbD 0).toNat) ∧
    (s.bw.n = 7 → s.bw.buf.toNat < 128 → s.snk.closed = false →
      ∃ b : Byte, exec .wrbit s = .next { s with
          bw := { s.bw with buf := 0x00, n := 0 },
          snk := { s.snk with bytes := s.snk.bytes ++ [b] }, bwRsp := s.bwRsp ++ [{ status := .ok, rdata := 0 }] } ∧
        b.toNat = 2 * s.bw.buf.toNat + (s.bwWdata.getLsbD 0).toNat)

/-- `FLUSH` on the registers: nothing pending, nothing sent; otherwise the pending bits in the high-order positions and zeros below;
a second `FLUSH` sends nothing (R97, R40). -/
def Obligations.FlushPadsWithZerosBelow : Prop :=
  ∀ s : State, s.bw.life = .bound →
    (s.bw.n = 0 → exec .flush s = .next { s with bwRsp := s.bwRsp ++ [{ status := .ok, rdata := 0 }] }) ∧
    (s.snk.closed = false → WriterInv s.writerSide → s.bw.n ≠ 0 →
      ∃ (b : Byte) (t : State), exec .flush s = .next t ∧
        t = { s with
            bw := { s.bw with buf := 0x00, n := 0 }, snk := { s.snk with bytes := s.snk.bytes ++ [b] },
            bwRsp := s.bwRsp ++ [{ status := .ok, rdata := 0 }] } ∧
        b.toNat = s.bw.buf.toNat * 2 ^ (8 - s.bw.n.toNat) ∧
        exec .flush t = .next { t with bwRsp := t.bwRsp ++ [{ status := .ok, rdata := 0 }] })

/-- R117: the writer's state is a function of the bits laid down, and every write appends the low bits of its operand, most
significant first; a write past its prologue never fails. -/
def Obligations.WritesAppendTheirBits : Prop :=
  (∀ s : State, s.bw.life = .unbound → s.snk.bytes = [] →
    ∃ t, exec .wbind s = .next t ∧ t.writerSide.written = []) ∧
  (∀ w : WriterSide, WriterInv w → w.bw.n.toNat = w.written.length % 8 ∧ w.snk.bytes.length = w.written.length / 8) ∧
  (∀ w w' : WriterSide, WriterInv w → WriterInv w' → w.written = w'.written →
    w.bw.buf = w'.bw.buf ∧ w.bw.n = w'.bw.n ∧ w.snk.bytes = w'.snk.bytes) ∧
  ∀ (s : State) (i : Instr) (k : Nat), WriterInv s.writerSide → s.bw.life = .bound → s.snk.closed = false →
    writeWidthOf i = some k → badWidth i = false →
    ∃ w, exec i s = .next ((s.setWriter w).answerWriter { status := .ok, rdata := 0 }) ∧
      w.written = s.writerSide.written ++ bitsLow s.bwWdata k ∧ w.bw.life = .bound ∧ w.snk.closed = false

/-- R118: `FLUSH` and `WCLOSE` append the zeros that bring the bits laid down to the next multiple of 8, and none if they are one
already; nothing is pending afterwards; `WCLOSE` also closes the sink. -/
def Obligations.FlushAndCloseAppendThePad : Prop :=
  ∀ s : State, WriterInv s.writerSide → s.bw.life = .bound → s.snk.closed = false →
    ∀ q : List Bool, q = s.writerSide.written → ∀ q' : List Bool, q' = q ++ List.replicate ((8 - q.length % 8) % 8) false →
    (∃ w, exec .flush s = .next ((s.setWriter w).answerWriter { status := .ok, rdata := 0 }) ∧
      w.written = q' ∧ w.bw.n = 0 ∧ streamBits w.snk.bytes = q' ∧ w.bw.life = .bound ∧ w.snk.closed = false) ∧
    (∃ w, exec .wclose s = .next ((s.setWriter w).answerWriter { status := .ok, rdata := 0 }) ∧
      w.written = q' ∧ w.bw.n = 0 ∧ streamBits w.snk.bytes = q' ∧ w.bw.life = .closed ∧ w.snk.closed = true)

/-- R55: a write reads the low bits of its operand alone, and every other command none of it: another operand that agrees there
gives the same outcome, but for the operand lines themselves. -/
def Obligations.UnusedOperandBitsAreIgnored : Prop :=
  ∀ (i : Instr) (s : State) (d : Data),
    (∀ k, writeWidthOf i = some k → badWidth i = false → ∀ j < k, d.getLsbD j = s.bwWdata.getLsbD j) →
    exec i { s with bwWdata := d } = mapNext (fun t => { t with bwWdata := d }) (exec i s) ∧
    ∀ e : Data, exec i { s with brWdata := e } = mapNext (fun t => { t with brWdata := e }) (exec i s)

/-- R121: widths 1 and 32 of the variable reads and writes match the dedicated commands in every state, on failure too; the writes
use only bit 0 and only bits 31 to 0 of the operand. -/
def Obligations.BoundaryWidthsMatchTheDedicatedPaths : Prop :=
  ∀ s : State,
    exec (.rdbits 1) s = exec .rdbit s ∧ exec (.rdbits 32) s = exec .rdint s ∧
    exec (.wrbits 1) s = exec .wrbit s ∧ exec (.wrbits 32) s = exec .wrint s ∧
    ∀ d : Data,
      (d.getLsbD 0 = s.bwWdata.getLsbD 0 →
        exec (.wrbits 1) { s with bwWdata := d } = mapNext (fun t => { t with bwWdata := d }) (exec .wrbit s)) ∧
      (d.extractLsb' 0 32 = s.bwWdata.extractLsb' 0 32 →
        exec (.wrbits 32) { s with bwWdata := d } = mapNext (fun t => { t with bwWdata := d }) (exec .wrint s))

/-! ### Streams (42_stream_format_and_laws.md, 10_state.md) -/

/-- One read of `a + b` bits equals a read of `a` bits and then one of `b`, in the result and in the state left, whenever enough
bits remain (R120). -/
def Obligations.ReadsSplit : Prop :=
  ∀ (s : State) (a b : Nat), ReaderInv s.readerSide → s.br.life = .bound → 1 ≤ a → 1 ≤ b → a + b ≤ 32 →
    a + b ≤ s.readerSide.rem.length →
    ∃ (r r' : ReaderSide) (x y : Nat),
      exec (.rdbits a) s = .next ((s.setReader r).answerReader { status := .ok, rdata := BitVec.ofNat 64 x, rbytes := [] }) ∧
      exec (.rdbits b) (s.setReader r) =
        .next ((s.setReader r').answerReader { status := .ok, rdata := BitVec.ofNat 64 y, rbytes := [] }) ∧
      exec (.rdbits (a + b)) s =
        .next ((s.setReader r').answerReader { status := .ok, rdata := BitVec.ofNat 64 (x * 2 ^ b + y), rbytes := [] })

/-- One write of `a + b` bits equals a write of the top `a` of them and then one of the low `b`, in the state left (R120). -/
def Obligations.WritesSplit : Prop :=
  ∀ (s : State) (d : Data) (a b : Nat), WriterInv s.writerSide → s.bw.life = .bound → s.snk.closed = false →
    1 ≤ a → 1 ≤ b → a + b ≤ 32 →
    ∃ w w' : WriterSide,
      exec (.wrbits a) { s with bwWdata := d >>> b } =
        .next ((({ s with bwWdata := d >>> b } : State).setWriter w).answerWriter { status := .ok, rdata := 0 }) ∧
      exec (.wrbits b) (({ s with bwWdata := d } : State).setWriter w) =
        .next ((({ s with bwWdata := d } : State).setWriter w').answerWriter { status := .ok, rdata := 0 }) ∧
      exec (.wrbits (a + b)) { s with bwWdata := d } =
        .next ((({ s with bwWdata := d } : State).setWriter w').answerWriter { status := .ok, rdata := 0 })

/-- R27: a reader command reads nothing of the writer's side and a writer command nothing of the reader's, neither writes the
other's, and two input sequences with the same reader inputs in the same order and the same writer inputs in the same order leave
the same state and the same responses, however they are interleaved. -/
def Obligations.TheUnitsAreIndependent : Prop :=
  (∀ (i : Instr) (s t s' : State), i.port = .reader → exec i s = .next t → s'.readerSide = s.readerSide →
    ∃ q, t = (s.setReader t.readerSide).answerReader q ∧ exec i s' = .next ((s'.setReader t.readerSide).answerReader q)) ∧
  (∀ (i : Instr) (s t s' : State), i.port = .writer → exec i s = .next t → s'.writerSide = s.writerSide →
    s'.bwWdata = s.bwWdata →
    ∃ q, t = (s.setWriter t.writerSide).answerWriter q ∧ exec i s' = .next ((s'.setWriter t.writerSide).answerWriter q)) ∧
  ∀ (s t : State) (l l' : List Input),
    l.filter (fun e => e.isReader) = l'.filter (fun e => e.isReader) →
    l.filter (fun e => !e.isReader) = l'.filter (fun e => !e.isReader) →
    Host.Core.run Sys2Proof.core l.length { s with inputs := l } = .next t →
    Host.Core.run Sys2Proof.core l'.length { s with inputs := l' } = .next t

/-- R119: fields written with their widths and closed give a stream that is their bits and the pad; a reader bound to that stream
that reads the same widths gets the same patterns, zero-extended, and is left with the pad; and any sequence of read widths that
fits gets the corresponding slices of the stream. -/
def Obligations.WrittenStreamsReadBack : Prop :=
  ∀ fs : List Field, (∀ f ∈ fs, f.legal = true) → ∀ k : Nat, k = (fs.map Field.width).sum →
    (∀ s : State, s.bw.life = .unbound → s.snk = { bytes := [], closed := false } →
      ∃ t : State, Host.Core.run Sys2Proof.core (fs.length + 2) { s with inputs := writeInputs fs } = .next t ∧
        streamBits t.snk.bytes = fs.flatMap Field.bitsOf ++ List.replicate ((8 - k % 8) % 8) false ∧
        t.snk.closed = true ∧ t.bw.life = .closed ∧
        t.bwRsp = s.bwRsp ++ List.replicate (fs.length + 2) { status := .ok, rdata := 0 }) ∧
    (∀ (s : State) (bs : List Byte), s.br.life = .unbound → s.src = { bytes := bs, pos := 0, released := false } →
      streamBits bs = fs.flatMap Field.bitsOf ++ List.replicate ((8 - k % 8) % 8) false →
      (∃ t : State, Host.Core.run Sys2Proof.core (fs.length + 1) { s with inputs := readInputs fs } = .next t ∧
        t.brRsp = s.brRsp ++ { status := .ok, rdata := 0, rbytes := [] } ::
          fs.map (fun f => { status := .ok, rdata := BitVec.ofNat 64 (f.operand.toNat % 2 ^ f.width), rbytes := [] }) ∧
        t.readerSide.rem = List.replicate ((8 - k % 8) % 8) false) ∧
      ∀ gs : List Field, (∀ g ∈ gs, g.legal = true) → (gs.map Field.width).sum ≤ 8 * bs.length →
        ∃ t : State, Host.Core.run Sys2Proof.core (gs.length + 1) { s with inputs := readInputs gs } = .next t ∧
          t.brRsp = s.brRsp ++ { status := .ok, rdata := 0, rbytes := [] } ::
            (slices (gs.map Field.width) (streamBits bs)).map
              (fun q => { status := .ok, rdata := BitVec.ofNat 64 (val q), rbytes := [] }))

/-- The codeword stream: `k` codewords of 12 bits, written and closed with no flush between, are their bits most significant first
and then 4 zeros for odd `k`, none for even `k`, in `ceil(3k/2)` bytes (R110). -/
def Obligations.CodewordStreamIsDenselyPacked : Prop :=
  ∀ (s : State) (cs : List (BitVec 12)), s.bw.life = .unbound → s.snk = { bytes := [], closed := false } →
    ∃ t : State, Host.Core.run Sys2Proof.core (cs.length + 2)
        { s with inputs := writeInputs (cs.map fun c => Field.bits 12 (c.setWidth 64)) } = .next t ∧
      streamBits t.snk.bytes = (cs.flatMap fun c => bitsLow c 12) ++ List.replicate (if cs.length % 2 = 0 then 0 else 4) false ∧
      t.snk.bytes.length = (3 * cs.length + 1) / 2 ∧ t.snk.closed = true
end

