-- ==== Sys2Proof/Laws/Bits.lean ====
section
/-! SUPPORT. Bit sequences: their lengths, their values, and what the operand forms do to them. -/

namespace Sys2Proof.Machine

@[simp] theorem bitsLow_zero {w : Nat} (v : BitVec w) : bitsLow v 0 = [] := rfl

theorem bitsLow_succ {w : Nat} (v : BitVec w) (k : Nat) : bitsLow v (k + 1) = v.getLsbD k :: bitsLow v k := rfl

@[simp] theorem bitsLow_length {w : Nat} (v : BitVec w) (k : Nat) : (bitsLow v k).length = k := by
  induction k with
  | zero => rfl
  | succ k ih => simp [bitsLow, ih]

theorem bitsLow_congr {w m : Nat} (v : BitVec w) (u : BitVec m) (k : Nat)
    (h : ∀ i < k, v.getLsbD i = u.getLsbD i) : bitsLow v k = bitsLow u k := by
  induction k with
  | zero => rfl
  | succ k ih => simp [bitsLow, h k (by omega), ih fun i hi => h i (by omega)]

/-- The first `a` bits of `a + b` are the low `a` bits of the quantity shifted down. -/
theorem bitsLow_add {w : Nat} (v : BitVec w) (a b : Nat) :
    bitsLow v (a + b) = bitsLow (v >>> b) a ++ bitsLow v b := by
  induction a with
  | zero => simp
  | succ a ih =>
    have h : a + 1 + b = (a + b) + 1 := by omega
    rw [h, bitsLow_succ, ih, bitsLow_succ, BitVec.getLsbD_ushiftRight]
    simp [Nat.add_comm]

theorem bitsLow_drop {w : Nat} (v : BitVec w) (a b : Nat) : (bitsLow v (a + b)).drop a = bitsLow v b := by
  rw [bitsLow_add, List.drop_left' (by simp)]

theorem bitsLow_take {w : Nat} (v : BitVec w) (a b : Nat) : (bitsLow v (a + b)).take a = bitsLow (v >>> b) a := by
  rw [bitsLow_add, List.take_left' (by simp)]

@[simp] theorem byteBits_length (b : Byte) : (byteBits b).length = 8 := bitsLow_length b 8

@[simp] theorem streamBits_nil : streamBits [] = [] := rfl

@[simp] theorem streamBits_cons (b : Byte) (bs : List Byte) : streamBits (b :: bs) = byteBits b ++ streamBits bs := rfl

@[simp] theorem streamBits_append (as bs : List Byte) : streamBits (as ++ bs) = streamBits as ++ streamBits bs := by
  simp [streamBits]

@[simp] theorem streamBits_length (bs : List Byte) : (streamBits bs).length = 8 * bs.length := by
  induction bs with
  | nil => rfl
  | cons b bs ih => simp [ih]; omega

@[simp] theorem val_nil : val [] = 0 := rfl

theorem val_foldl (q : List Bool) (x : Nat) :
    q.foldl (fun x b => 2 * x + b.toNat) x = x * 2 ^ q.length + val q := by
  induction q generalizing x with
  | nil => simp
  | cons b q ih =>
    have h0 : val (b :: q) = b.toNat * 2 ^ q.length + val q := by
      rw [val, List.foldl_cons, ih]; ring
    rw [List.foldl_cons, ih, h0, List.length_cons]
    ring

theorem val_append (p q : List Bool) : val (p ++ q) = val p * 2 ^ q.length + val q := by
  rw [val, List.foldl_append, val_foldl]; rfl

theorem val_snoc (p : List Bool) (b : Bool) : val (p ++ [b]) = 2 * val p + b.toNat := by
  rw [val_append]; simp [val]; ring

theorem val_lt (q : List Bool) : val q < 2 ^ q.length := by
  induction q using List.reverseRecOn with
  | nil => simp
  | append_singleton q b ih =>
    rw [val_snoc, List.length_append, List.length_singleton, pow_succ]
    have := b.toNat_le
    omega

/-- A sequence's value determines it, given the length. -/
theorem val_inj (p q : List Bool) (hl : p.length = q.length) (h : val p = val q) : p = q := by
  induction p using List.reverseRecOn generalizing q with
  | nil => exact (List.length_eq_zero_iff.mp hl.symm).symm
  | append_singleton p b ih =>
    cases q using List.reverseRecOn with
    | nil => simp at hl
    | append_singleton q c =>
      rw [val_snoc, val_snoc] at h
      have hl' : p.length = q.length := by simpa using hl
      have hp : val p = val q ∧ b = c := by
        cases b <;> cases c <;> simp at h ⊢ <;> omega
      rw [ih q hl' hp.1, hp.2]

theorem val_bitsLow {w : Nat} (v : BitVec w) (k : Nat) : val (bitsLow v k) = v.toNat % 2 ^ k := by
  induction k with
  | zero => simp [Nat.mod_one]
  | succ k ih =>
    rw [bitsLow_succ, ← List.singleton_append, val_append, ih, bitsLow_length, BitVec.getLsbD, Nat.testBit_eq_decide_div_mod_eq]
    have h1 : v.toNat % 2 ^ (k + 1) = v.toNat % 2 ^ k + 2 ^ k * (v.toNat / 2 ^ k % 2) := by
      rw [pow_succ, Nat.mod_mul]
    rw [h1]
    rcases Nat.mod_two_eq_zero_or_one (v.toNat / 2 ^ k) with h | h <;> simp [h, val]
    ring

theorem val_byteBits (b : Byte) : val (byteBits b) = b.toNat := by
  rw [byteBits, val_bitsLow]; exact Nat.mod_eq_of_lt b.isLt

theorem byteBits_inj {a b : Byte} (h : byteBits a = byteBits b) : a = b := by
  apply BitVec.eq_of_toNat_eq
  rw [← val_byteBits, h, val_byteBits]

theorem streamBits_inj {as bs : List Byte} (h : streamBits as = streamBits bs) : as = bs := by
  induction as generalizing bs with
  | nil =>
    cases bs with
    | nil => rfl
    | cons b bs => have := congrArg List.length h; simp at this; omega
  | cons a as ih =>
    cases bs with
    | nil => have := congrArg List.length h; simp at this
    | cons b bs =>
      rw [streamBits_cons, streamBits_cons] at h
      have h' := List.append_inj h (by simp)
      rw [byteBits_inj h'.1, ih h'.2]

/-! ### What the operand forms do to bits -/

theorem appendBit_getLsbD {w : Nat} (x : BitVec w) (b : Bool) (i : Nat) :
    (appendBit x b).getLsbD i = (decide (i < w) && if i = 0 then b else x.getLsbD (i - 1)) := by
  unfold appendBit
  rw [BitVec.getLsbD_or, BitVec.getLsbD_shiftLeft, BitVec.getLsbD_setWidth, BitVec.getLsbD_ofBool]
  by_cases h : i < w <;> rcases i with _ | i <;> simp [h]

theorem bitsLow_appendBit {w : Nat} (x : BitVec w) (b : Bool) (k : Nat) (h : k < w) :
    bitsLow (appendBit x b) (k + 1) = bitsLow x k ++ [b] := by
  induction k with
  | zero => rw [bitsLow_succ, appendBit_getLsbD]; simp [h]
  | succ k ih =>
    rw [bitsLow_succ, ih (by omega), bitsLow_succ, appendBit_getLsbD]
    simp [h]

theorem appendBit_toNat {w : Nat} (x : BitVec w) (b : Bool) (h : 2 * x.toNat + b.toNat < 2 ^ w) :
    (appendBit x b).toNat = 2 * x.toNat + b.toNat := by
  have key : ∀ k ≤ w, val (bitsLow (appendBit x b) k) = (2 * x.toNat + b.toNat) % 2 ^ k := by
    intro k hk
    cases k with
    | zero => simp [Nat.mod_one]
    | succ k =>
      have hb : b.toNat % 2 = b.toNat := Nat.mod_eq_of_lt b.toNat_lt
      have hd : (2 * x.toNat + b.toNat) / 2 = x.toNat := by have := b.toNat_lt; omega
      rw [bitsLow_appendBit x b k (by omega), val_snoc, val_bitsLow, pow_succ, Nat.mul_comm (2 ^ k), Nat.mod_mul, hd]
      omega
  have h1 := key w (Nat.le_refl w)
  rwa [val_bitsLow, Nat.mod_eq_of_lt (BitVec.isLt _), Nat.mod_eq_of_lt h] at h1

theorem appendByte_toNat {w : Nat} (x : BitVec w) (b : Byte) (h : 256 * x.toNat + b.toNat < 2 ^ w) :
    (appendByte x b).toNat = 256 * x.toNat + b.toNat := by
  have hb : b.toNat < 2 ^ 8 := b.isLt
  have h1 : x.toNat <<< 8 % 2 ^ w = x.toNat <<< 8 := by
    rw [Nat.shiftLeft_eq]; exact Nat.mod_eq_of_lt (by omega)
  have h2 : b.toNat % 2 ^ w = b.toNat := Nat.mod_eq_of_lt (by omega)
  unfold appendByte
  rw [BitVec.toNat_or, BitVec.toNat_shiftLeft, BitVec.toNat_setWidth, h1, h2, ← Nat.shiftLeft_add_eq_or_of_lt hb,
    Nat.shiftLeft_eq]
  ring

theorem joinBytes_foldl_toNat {w : Nat} (bs : List Byte) (x : BitVec w)
    (h : x.toNat * 2 ^ (8 * bs.length) + val (streamBits bs) < 2 ^ w) :
    (bs.foldl appendByte x).toNat = x.toNat * 2 ^ (8 * bs.length) + val (streamBits bs) := by
  induction bs generalizing x with
  | nil => simp
  | cons b bs ih =>
    rw [streamBits_cons, val_append, val_byteBits, streamBits_length, List.length_cons] at h ⊢
    have e : x.toNat * 2 ^ (8 * (bs.length + 1)) + (b.toNat * 2 ^ (8 * bs.length) + val (streamBits bs)) =
        (256 * x.toNat + b.toNat) * 2 ^ (8 * bs.length) + val (streamBits bs) := by
      rw [Nat.mul_add 8, pow_add]; ring
    rw [e] at h ⊢
    have hx : (appendByte x b).toNat = 256 * x.toNat + b.toNat := by
      apply appendByte_toNat
      have := Nat.one_le_two_pow (n := 8 * bs.length)
      nlinarith
    rw [List.foldl_cons, ih _ (by rwa [hx]), hx]

/-- A quantity assembled from whole bytes is the value of their bits (R35). -/
theorem joinBytes_toNat {w : Nat} (bs : List Byte) (h : 8 * bs.length ≤ w) :
    (joinBytes w bs).toNat = val (streamBits bs) := by
  have h1 := val_lt (streamBits bs)
  rw [streamBits_length] at h1
  have h2 : 2 ^ (8 * bs.length) ≤ 2 ^ w := Nat.pow_le_pow_right (by omega) h
  rw [joinBytes, joinBytes_foldl_toNat]
  · simp
  · simp; omega

/-- The bits of a spliced byte: the resident bits, then the top of the next byte (R39). -/
theorem byteBits_splice (n : Nat) (h : n ≤ 8) (a b : Byte) :
    byteBits (splice n a b) = bitsLow a n ++ bitsLow (b >>> n) (8 - n) := by
  have e : byteBits (splice n a b) = bitsLow (splice n a b) (n + (8 - n)) := by rw [byteBits, Nat.add_sub_cancel' h]
  rw [e, bitsLow_add]
  congr 1 <;> apply bitsLow_congr <;> intro i hi <;> unfold splice
  · have h1 : 8 - n + i < 8 := by omega
    have h2 : 8 ≤ n + (8 - n + i) := by omega
    simp [h1, BitVec.getLsbD_of_ge b _ h2, BitVec.getLsbD_eq_getElem (show i < 8 by omega)]
  · have h1 : i < 8 - n := hi
    simp [h1]

theorem bitsLow_byte_split (n : Nat) (h : n ≤ 8) (b : Byte) :
    byteBits b = bitsLow (b >>> n) (8 - n) ++ bitsLow b n := by
  have : byteBits b = bitsLow b (8 - n + n) := by rw [byteBits, Nat.sub_add_cancel h]
  rw [this, bitsLow_add]

end Sys2Proof.Machine
end

