-- ==== Sys2Proof/Laws/State.lean ====
section
/-! SUPPORT. One lemma per field per update of the state, so that no proof unfolds a record update. -/

namespace Sys2Proof.Machine

@[simp] theorem State.setReader_br (s : State) (r : ReaderSide) : (s.setReader r).br = r.br := rfl
@[simp] theorem State.setReader_bw (s : State) (r : ReaderSide) : (s.setReader r).bw = s.bw := rfl
@[simp] theorem State.setReader_src (s : State) (r : ReaderSide) : (s.setReader r).src = r.src := rfl
@[simp] theorem State.setReader_snk (s : State) (r : ReaderSide) : (s.setReader r).snk = s.snk := rfl
@[simp] theorem State.setReader_brWdata (s : State) (r : ReaderSide) : (s.setReader r).brWdata = s.brWdata := rfl
@[simp] theorem State.setReader_bwWdata (s : State) (r : ReaderSide) : (s.setReader r).bwWdata = s.bwWdata := rfl
@[simp] theorem State.setReader_brRsp (s : State) (r : ReaderSide) : (s.setReader r).brRsp = s.brRsp := rfl
@[simp] theorem State.setReader_bwRsp (s : State) (r : ReaderSide) : (s.setReader r).bwRsp = s.bwRsp := rfl
@[simp] theorem State.setReader_inputs (s : State) (r : ReaderSide) : (s.setReader r).inputs = s.inputs := rfl

@[simp] theorem State.setWriter_br (s : State) (w : WriterSide) : (s.setWriter w).br = s.br := rfl
@[simp] theorem State.setWriter_bw (s : State) (w : WriterSide) : (s.setWriter w).bw = w.bw := rfl
@[simp] theorem State.setWriter_src (s : State) (w : WriterSide) : (s.setWriter w).src = s.src := rfl
@[simp] theorem State.setWriter_snk (s : State) (w : WriterSide) : (s.setWriter w).snk = w.snk := rfl
@[simp] theorem State.setWriter_brWdata (s : State) (w : WriterSide) : (s.setWriter w).brWdata = s.brWdata := rfl
@[simp] theorem State.setWriter_bwWdata (s : State) (w : WriterSide) : (s.setWriter w).bwWdata = s.bwWdata := rfl
@[simp] theorem State.setWriter_brRsp (s : State) (w : WriterSide) : (s.setWriter w).brRsp = s.brRsp := rfl
@[simp] theorem State.setWriter_bwRsp (s : State) (w : WriterSide) : (s.setWriter w).bwRsp = s.bwRsp := rfl
@[simp] theorem State.setWriter_inputs (s : State) (w : WriterSide) : (s.setWriter w).inputs = s.inputs := rfl

@[simp] theorem State.answerReader_br (s : State) (p : ReaderResponse) : (s.answerReader p).br = s.br := rfl
@[simp] theorem State.answerReader_bw (s : State) (p : ReaderResponse) : (s.answerReader p).bw = s.bw := rfl
@[simp] theorem State.answerReader_src (s : State) (p : ReaderResponse) : (s.answerReader p).src = s.src := rfl
@[simp] theorem State.answerReader_snk (s : State) (p : ReaderResponse) : (s.answerReader p).snk = s.snk := rfl
@[simp] theorem State.answerReader_brWdata (s : State) (p : ReaderResponse) : (s.answerReader p).brWdata = s.brWdata := rfl
@[simp] theorem State.answerReader_bwWdata (s : State) (p : ReaderResponse) : (s.answerReader p).bwWdata = s.bwWdata := rfl
@[simp] theorem State.answerReader_brRsp (s : State) (p : ReaderResponse) : (s.answerReader p).brRsp = s.brRsp ++ [p] := rfl
@[simp] theorem State.answerReader_bwRsp (s : State) (p : ReaderResponse) : (s.answerReader p).bwRsp = s.bwRsp := rfl
@[simp] theorem State.answerReader_inputs (s : State) (p : ReaderResponse) : (s.answerReader p).inputs = s.inputs := rfl

@[simp] theorem State.answerWriter_br (s : State) (p : WriterResponse) : (s.answerWriter p).br = s.br := rfl
@[simp] theorem State.answerWriter_bw (s : State) (p : WriterResponse) : (s.answerWriter p).bw = s.bw := rfl
@[simp] theorem State.answerWriter_src (s : State) (p : WriterResponse) : (s.answerWriter p).src = s.src := rfl
@[simp] theorem State.answerWriter_snk (s : State) (p : WriterResponse) : (s.answerWriter p).snk = s.snk := rfl
@[simp] theorem State.answerWriter_brWdata (s : State) (p : WriterResponse) : (s.answerWriter p).brWdata = s.brWdata := rfl
@[simp] theorem State.answerWriter_bwWdata (s : State) (p : WriterResponse) : (s.answerWriter p).bwWdata = s.bwWdata := rfl
@[simp] theorem State.answerWriter_brRsp (s : State) (p : WriterResponse) : (s.answerWriter p).brRsp = s.brRsp := rfl
@[simp] theorem State.answerWriter_bwRsp (s : State) (p : WriterResponse) : (s.answerWriter p).bwRsp = s.bwRsp ++ [p] := rfl
@[simp] theorem State.answerWriter_inputs (s : State) (p : WriterResponse) : (s.answerWriter p).inputs = s.inputs := rfl

@[simp] theorem State.resetReader_br (s : State) : (s.resetReader).br = ReaderRegs.reset := rfl
@[simp] theorem State.resetReader_bw (s : State) : (s.resetReader).bw = s.bw := rfl
@[simp] theorem State.resetReader_src (s : State) : (s.resetReader).src = s.src := rfl
@[simp] theorem State.resetReader_snk (s : State) : (s.resetReader).snk = s.snk := rfl
@[simp] theorem State.resetReader_brWdata (s : State) : (s.resetReader).brWdata = s.brWdata := rfl
@[simp] theorem State.resetReader_bwWdata (s : State) : (s.resetReader).bwWdata = s.bwWdata := rfl
@[simp] theorem State.resetReader_brRsp (s : State) : (s.resetReader).brRsp = s.brRsp := rfl
@[simp] theorem State.resetReader_bwRsp (s : State) : (s.resetReader).bwRsp = s.bwRsp := rfl
@[simp] theorem State.resetReader_inputs (s : State) : (s.resetReader).inputs = s.inputs := rfl

@[simp] theorem State.resetWriter_br (s : State) : (s.resetWriter).br = s.br := rfl
@[simp] theorem State.resetWriter_bw (s : State) : (s.resetWriter).bw = WriterRegs.reset := rfl
@[simp] theorem State.resetWriter_src (s : State) : (s.resetWriter).src = s.src := rfl
@[simp] theorem State.resetWriter_snk (s : State) : (s.resetWriter).snk = s.snk := rfl
@[simp] theorem State.resetWriter_brWdata (s : State) : (s.resetWriter).brWdata = s.brWdata := rfl
@[simp] theorem State.resetWriter_bwWdata (s : State) : (s.resetWriter).bwWdata = s.bwWdata := rfl
@[simp] theorem State.resetWriter_brRsp (s : State) : (s.resetWriter).brRsp = s.brRsp := rfl
@[simp] theorem State.resetWriter_bwRsp (s : State) : (s.resetWriter).bwRsp = s.bwRsp := rfl
@[simp] theorem State.resetWriter_inputs (s : State) : (s.resetWriter).inputs = s.inputs := rfl

@[simp] theorem State.newSource_br (s : State) (bs : List Byte) : (s.newSource bs).br = s.br := rfl
@[simp] theorem State.newSource_bw (s : State) (bs : List Byte) : (s.newSource bs).bw = s.bw := rfl
@[simp] theorem State.newSource_src (s : State) (bs : List Byte) : (s.newSource bs).src = { bytes := bs, pos := 0, released := false } := rfl
@[simp] theorem State.newSource_snk (s : State) (bs : List Byte) : (s.newSource bs).snk = s.snk := rfl
@[simp] theorem State.newSource_brWdata (s : State) (bs : List Byte) : (s.newSource bs).brWdata = s.brWdata := rfl
@[simp] theorem State.newSource_bwWdata (s : State) (bs : List Byte) : (s.newSource bs).bwWdata = s.bwWdata := rfl
@[simp] theorem State.newSource_brRsp (s : State) (bs : List Byte) : (s.newSource bs).brRsp = s.brRsp := rfl
@[simp] theorem State.newSource_bwRsp (s : State) (bs : List Byte) : (s.newSource bs).bwRsp = s.bwRsp := rfl
@[simp] theorem State.newSource_inputs (s : State) (bs : List Byte) : (s.newSource bs).inputs = s.inputs := rfl

@[simp] theorem State.newSink_br (s : State) : (s.newSink).br = s.br := rfl
@[simp] theorem State.newSink_bw (s : State) : (s.newSink).bw = s.bw := rfl
@[simp] theorem State.newSink_src (s : State) : (s.newSink).src = s.src := rfl
@[simp] theorem State.newSink_snk (s : State) : (s.newSink).snk = { bytes := [], closed := false } := rfl
@[simp] theorem State.newSink_brWdata (s : State) : (s.newSink).brWdata = s.brWdata := rfl
@[simp] theorem State.newSink_bwWdata (s : State) : (s.newSink).bwWdata = s.bwWdata := rfl
@[simp] theorem State.newSink_brRsp (s : State) : (s.newSink).brRsp = s.brRsp := rfl
@[simp] theorem State.newSink_bwRsp (s : State) : (s.newSink).bwRsp = s.bwRsp := rfl
@[simp] theorem State.newSink_inputs (s : State) : (s.newSink).inputs = s.inputs := rfl

@[simp] theorem State.setWdata_reader_br (s : State) (d : Data) : (s.setWdata .reader d).br = s.br := rfl
@[simp] theorem State.setWdata_reader_bw (s : State) (d : Data) : (s.setWdata .reader d).bw = s.bw := rfl
@[simp] theorem State.setWdata_reader_src (s : State) (d : Data) : (s.setWdata .reader d).src = s.src := rfl
@[simp] theorem State.setWdata_reader_snk (s : State) (d : Data) : (s.setWdata .reader d).snk = s.snk := rfl
@[simp] theorem State.setWdata_reader_brWdata (s : State) (d : Data) : (s.setWdata .reader d).brWdata = d := rfl
@[simp] theorem State.setWdata_reader_bwWdata (s : State) (d : Data) : (s.setWdata .reader d).bwWdata = s.bwWdata := rfl
@[simp] theorem State.setWdata_reader_brRsp (s : State) (d : Data) : (s.setWdata .reader d).brRsp = s.brRsp := rfl
@[simp] theorem State.setWdata_reader_bwRsp (s : State) (d : Data) : (s.setWdata .reader d).bwRsp = s.bwRsp := rfl
@[simp] theorem State.setWdata_reader_inputs (s : State) (d : Data) : (s.setWdata .reader d).inputs = s.inputs := rfl

@[simp] theorem State.setWdata_writer_br (s : State) (d : Data) : (s.setWdata .writer d).br = s.br := rfl
@[simp] theorem State.setWdata_writer_bw (s : State) (d : Data) : (s.setWdata .writer d).bw = s.bw := rfl
@[simp] theorem State.setWdata_writer_src (s : State) (d : Data) : (s.setWdata .writer d).src = s.src := rfl
@[simp] theorem State.setWdata_writer_snk (s : State) (d : Data) : (s.setWdata .writer d).snk = s.snk := rfl
@[simp] theorem State.setWdata_writer_brWdata (s : State) (d : Data) : (s.setWdata .writer d).brWdata = s.brWdata := rfl
@[simp] theorem State.setWdata_writer_bwWdata (s : State) (d : Data) : (s.setWdata .writer d).bwWdata = d := rfl
@[simp] theorem State.setWdata_writer_brRsp (s : State) (d : Data) : (s.setWdata .writer d).brRsp = s.brRsp := rfl
@[simp] theorem State.setWdata_writer_bwRsp (s : State) (d : Data) : (s.setWdata .writer d).bwRsp = s.bwRsp := rfl
@[simp] theorem State.setWdata_writer_inputs (s : State) (d : Data) : (s.setWdata .writer d).inputs = s.inputs := rfl

@[simp] theorem State.readerSide_br (s : State) : s.readerSide.br = s.br := rfl
@[simp] theorem State.readerSide_src (s : State) : s.readerSide.src = s.src := rfl
@[simp] theorem State.writerSide_bw (s : State) : s.writerSide.bw = s.bw := rfl
@[simp] theorem State.writerSide_snk (s : State) : s.writerSide.snk = s.snk := rfl
@[simp] theorem State.setReader_readerSide (s : State) (r : ReaderSide) : (s.setReader r).readerSide = r := rfl
@[simp] theorem State.setReader_writerSide (s : State) (r : ReaderSide) : (s.setReader r).writerSide = s.writerSide := rfl
@[simp] theorem State.setWriter_readerSide (s : State) (w : WriterSide) : (s.setWriter w).readerSide = s.readerSide := rfl
@[simp] theorem State.setWriter_writerSide (s : State) (w : WriterSide) : (s.setWriter w).writerSide = w := rfl
@[simp] theorem State.answerReader_readerSide (s : State) (p : ReaderResponse) : (s.answerReader p).readerSide = s.readerSide := rfl
@[simp] theorem State.answerReader_writerSide (s : State) (p : ReaderResponse) : (s.answerReader p).writerSide = s.writerSide := rfl
@[simp] theorem State.answerWriter_readerSide (s : State) (p : WriterResponse) : (s.answerWriter p).readerSide = s.readerSide := rfl
@[simp] theorem State.answerWriter_writerSide (s : State) (p : WriterResponse) : (s.answerWriter p).writerSide = s.writerSide := rfl
@[simp] theorem State.resetReader_readerSide (s : State) : (s.resetReader).readerSide = { br := ReaderRegs.reset, src := s.src } := rfl
@[simp] theorem State.resetReader_writerSide (s : State) : (s.resetReader).writerSide = s.writerSide := rfl
@[simp] theorem State.resetWriter_readerSide (s : State) : (s.resetWriter).readerSide = s.readerSide := rfl
@[simp] theorem State.resetWriter_writerSide (s : State) : (s.resetWriter).writerSide = { bw := WriterRegs.reset, snk := s.snk } := rfl
@[simp] theorem State.newSource_readerSide (s : State) (bs : List Byte) : (s.newSource bs).readerSide = { br := s.br, src := { bytes := bs, pos := 0, released := false } } := rfl
@[simp] theorem State.newSource_writerSide (s : State) (bs : List Byte) : (s.newSource bs).writerSide = s.writerSide := rfl
@[simp] theorem State.newSink_readerSide (s : State) : (s.newSink).readerSide = s.readerSide := rfl
@[simp] theorem State.newSink_writerSide (s : State) : (s.newSink).writerSide = { bw := s.bw, snk := { bytes := [], closed := false } } := rfl
@[simp] theorem State.setWdata_reader_readerSide (s : State) (d : Data) : (s.setWdata .reader d).readerSide = s.readerSide := rfl
@[simp] theorem State.setWdata_reader_writerSide (s : State) (d : Data) : (s.setWdata .reader d).writerSide = s.writerSide := rfl
@[simp] theorem State.setWdata_writer_readerSide (s : State) (d : Data) : (s.setWdata .writer d).readerSide = s.readerSide := rfl
@[simp] theorem State.setWdata_writer_writerSide (s : State) (d : Data) : (s.setWdata .writer d).writerSide = s.writerSide := rfl

@[simp] theorem ReaderSide.setN_n (r : ReaderSide) (n : Count) : (r.setN n).br.n = n := rfl
@[simp] theorem ReaderSide.setN_buf (r : ReaderSide) (n : Count) : (r.setN n).br.buf = r.br.buf := rfl
@[simp] theorem ReaderSide.setN_eof (r : ReaderSide) (n : Count) : (r.setN n).br.eof = r.br.eof := rfl
@[simp] theorem ReaderSide.setN_life (r : ReaderSide) (n : Count) : (r.setN n).br.life = r.br.life := rfl
@[simp] theorem ReaderSide.setN_src (r : ReaderSide) (n : Count) : (r.setN n).src = r.src := rfl

end Sys2Proof.Machine
end

