-- ==== Sys2Proof/Laws/Reader.lean ====
section
/-! SUPPORT. What each shared operation of the reader can do, said once, in terms of the remaining bits (R37, R113 to R116). -/

namespace Sys2Proof.Machine

/-- How a read ends: `Q` of the value and the side on success, `E` of the side on `EOS`, `F` on a fault. -/
def ReadOut.Ends {α : Type} (o : ReadOut α) (Q : α → ReaderSide → Prop) (E : ReaderSide → Prop) (F : Prop) : Prop :=
  match o with
  | .ok v r => Q v r
  | .eos r => E r
  | .fault _ => F

@[simp] theorem ReadOut.ends_ok {α : Type} (v : α) (r : ReaderSide) (Q : α → ReaderSide → Prop) (E : ReaderSide → Prop) (F : Prop) :
    (ReadOut.ok v r).Ends Q E F ↔ Q v r := Iff.rfl

@[simp] theorem ReadOut.ends_eos {α : Type} (r : ReaderSide) (Q : α → ReaderSide → Prop) (E : ReaderSide → Prop) (F : Prop) :
    (ReadOut.eos r : ReadOut α).Ends Q E F ↔ E r := Iff.rfl

@[simp] theorem ReadOut.ends_fault {α : Type} (f : Fault) (Q : α → ReaderSide → Prop) (E : ReaderSide → Prop) (F : Prop) :
    (ReadOut.fault f : ReadOut α).Ends Q E F ↔ F := Iff.rfl

@[simp] theorem ReadOut.bind_ok {α β : Type} (v : α) (r : ReaderSide) (k : α → ReaderSide → ReadOut β) :
    (ReadOut.ok v r).bind k = k v r := rfl

@[simp] theorem ReadOut.bind_eos {α β : Type} (r : ReaderSide) (k : α → ReaderSide → ReadOut β) :
    (ReadOut.eos r).bind k = .eos r := rfl

@[simp] theorem ReadOut.bind_fault {α β : Type} (f : Fault) (k : α → ReaderSide → ReadOut β) :
    (ReadOut.fault f).bind k = .fault f := rfl

@[simp] theorem ReadOut.map_ok {α β : Type} (g : α → β) (v : α) (r : ReaderSide) :
    (ReadOut.ok v r).map g = .ok (g v) r := rfl

@[simp] theorem ReadOut.map_eos {α β : Type} (g : α → β) (r : ReaderSide) : (ReadOut.eos r).map g = .eos r := rfl

@[simp] theorem ReadOut.map_fault {α β : Type} (g : α → β) (f : Fault) : (ReadOut.fault f).map g = .fault f := rfl

theorem ReadOut.bind_assoc {α β γ : Type} (o : ReadOut α) (k : α → ReaderSide → ReadOut β) (m : β → ReaderSide → ReadOut γ) :
    (o.bind k).bind m = o.bind fun v r => (k v r).bind m := by
  cases o <;> rfl

/-- What follows a read that has been described. -/
theorem ReadOut.Ends.bind {α β : Type} {o : ReadOut α} {k : α → ReaderSide → ReadOut β} {Q : α → ReaderSide → Prop}
    {E : ReaderSide → Prop} {F : Prop} {Q' : β → ReaderSide → Prop} {E' : ReaderSide → Prop} {F' : Prop}
    (h : o.Ends Q E F) (hok : ∀ v r, Q v r → (k v r).Ends Q' E' F') (heos : ∀ r, E r → E' r) (hf : F → F') :
    (o.bind k).Ends Q' E' F' := by
  cases o with
  | ok v r => exact hok v r h
  | eos r => exact heos r h
  | fault f => exact hf h

theorem ReadOut.Ends.mono {α : Type} {o : ReadOut α} {Q Q' : α → ReaderSide → Prop} {E E' : ReaderSide → Prop} {F F' : Prop}
    (h : o.Ends Q E F) (hok : ∀ v r, Q v r → Q' v r) (heos : ∀ r, E r → E' r) (hf : F → F') : o.Ends Q' E' F' := by
  cases o with
  | ok v r => exact hok v r h
  | eos r => exact heos r h
  | fault f => exact hf h

theorem ReadOut.Ends.map {α β : Type} {o : ReadOut α} {g : α → β} {Q : α → ReaderSide → Prop} {E : ReaderSide → Prop} {F : Prop}
    {Q' : β → ReaderSide → Prop} (h : o.Ends Q E F) (hok : ∀ v r, Q v r → Q' (g v) r) : (o.map g).Ends Q' E F :=
  h.bind (fun v r hv => hok v r hv) (fun _ he => he) id

/-! ### The source and the refill -/

/-- `SrcNext()` gives the byte at `pos` and moves on, or is exhausted and moves nothing (R32). -/
theorem Source.next_cases (s : Source) :
    (∃ b, s.bytes[s.pos]? = some b ∧ s.next = (.byte b, { s with pos := s.pos + 1 })) ∨
    (s.bytes[s.pos]? = none ∧ s.next = (.exhausted, s)) := by
  unfold Source.next
  cases h : s.bytes[s.pos]? with
  | none => exact .inr ⟨rfl, rfl⟩
  | some b => exact .inl ⟨b, rfl, rfl⟩

/-- The four ends of `Fill()` (R70). -/
theorem fill_cases (r : ReaderSide) :
    (r.br.eof = true ∧ fill r = .ok false r) ∨
    (r.br.eof = false ∧ r.src.released = true ∧ fill r = .fault .sourceReleased) ∨
    (r.br.eof = false ∧ r.src.released = false ∧ ∃ b, r.src.bytes[r.src.pos]? = some b ∧
      fill r = .ok true { br := { r.br with buf := b, n := 8 }, src := { r.src with pos := r.src.pos + 1 } }) ∨
    (r.br.eof = false ∧ r.src.released = false ∧ r.src.bytes[r.src.pos]? = none ∧
      fill r = .ok false { r with br := { r.br with eof := true } }) := by
  cases he : r.br.eof
  · cases hr : r.src.released
    · obtain ⟨b, hb, hn⟩ | ⟨hb, hn⟩ := r.src.next_cases
      · exact .inr (.inr (.inl ⟨rfl, rfl, b, hb, by simp [fill, he, hr, hn]⟩))
      · exact .inr (.inr (.inr ⟨rfl, rfl, hb, by simp [fill, he, hr, hn]⟩))
    · exact .inr (.inl ⟨rfl, rfl, by simp [fill, he, hr]⟩)
  · exact .inl ⟨rfl, by simp [fill, he]⟩

/-- `Fill()` never raises: a source that is exhausted is told by its value (R70). -/
theorem fill_ne_eos (r r' : ReaderSide) : fill r ≠ .eos r' := by
  obtain ⟨-, hf⟩ | ⟨-, -, hf⟩ | ⟨-, -, b, -, hf⟩ | ⟨-, -, -, hf⟩ := fill_cases r <;> simp [hf]

/-- A bound reader that keeps its invariants: what every data read starts from and leaves. -/
def ReaderReady (r : ReaderSide) : Prop := ReaderInv r ∧ r.br.life = .bound

theorem ReaderReady.inv {r : ReaderSide} (h : ReaderReady r) : ReaderInv r := h.1

theorem ReaderReady.bound {r : ReaderSide} (h : ReaderReady r) : r.br.life = .bound := h.2

theorem count_eq_zero_iff (n : Count) : n = 0 ↔ n.toNat = 0 := by
  constructor
  · rintro rfl; rfl
  · intro h; exact BitVec.eq_of_toNat_eq h

theorem count_eq_eight_iff (n : Count) : n = 8 ↔ n.toNat = 8 := by
  constructor
  · rintro rfl; rfl
  · intro h; exact BitVec.eq_of_toNat_eq h

theorem count_pred {n : Count} (h : n ≠ 0) : (n - 1).toNat + 1 = n.toNat := by
  bv_omega

/-- The length of the remaining bits (R37). -/
theorem rem_length (r : ReaderSide) :
    r.rem.length = r.br.n.toNat + 8 * (r.src.bytes.length - r.src.pos) := by
  simp [ReaderSide.rem]

/-- Once the source is exhausted only the resident bits remain. -/
theorem rem_of_eof {r : ReaderSide} (h : ReaderReady r) (he : r.br.eof = true) :
    r.rem = bitsLow r.br.buf r.br.n.toNat := by
  have hp := h.inv.2.2.1 h.bound he
  simp [ReaderSide.rem, hp]

theorem rem_nil_iff {r : ReaderSide} (h : ReaderReady r) : r.rem = [] ↔ r.br.n = 0 := by
  constructor
  · intro hr
    have := congrArg List.length hr
    rw [rem_length] at this
    rw [count_eq_zero_iff]; simp at this; exact this.1
  · intro hn
    rw [rem_of_eof h (h.inv.2.1 h.bound hn), hn]; rfl

theorem streamBits_drop {bs : List Byte} {p : Nat} {b : Byte} (h : bs[p]? = some b) :
    streamBits (bs.drop p) = byteBits b ++ streamBits (bs.drop (p + 1)) := by
  obtain ⟨hp, rfl⟩ := List.getElem?_eq_some_iff.mp h
  rw [List.drop_eq_getElem_cons hp, streamBits_cons]

/-- The refill of a reader whose last resident bit has just been handed out: every bit of the source's rest is still to come. -/
theorem fill_emptied {r : ReaderSide} (h : ReaderReady r) :
    (fill (r.setN 0)).Ends (fun _ r' => ReaderReady r' ∧ r'.rem = streamBits (r.src.bytes.drop r.src.pos))
      (fun _ => False) False := by
  obtain ⟨⟨h1, h2, h3, h4, h5, h6, h7, h8, h9, h10⟩, hb⟩ := h
  have hrel := h9 hb
  obtain ⟨he, hf⟩ | ⟨he, hr, hf⟩ | ⟨he, hr, b, hby, hf⟩ | ⟨he, hr, hby, hf⟩ := fill_cases (r.setN 0)
  · rw [hf, ReadOut.ends_ok]
    simp only [ReaderSide.setN_eof] at he
    have hp := h3 hb he
    refine ⟨⟨⟨?_, ?_, ?_, ?_, ?_, ?_, ?_, ?_, ?_, ?_⟩, ?_⟩, ?_⟩ <;>
      simp_all [ReaderSide.rem]
  · simp [hrel] at hr
  · rw [hf, ReadOut.ends_ok]
    simp only [ReaderSide.setN_eof, ReaderSide.setN_src] at he hby
    have hlt := (List.getElem?_eq_some_iff.mp hby).1
    refine ⟨⟨⟨?_, ?_, ?_, ?_, ?_, ?_, ?_, ?_, ?_, ?_⟩, ?_⟩, ?_⟩
    case refine_12 => rw [streamBits_drop hby]; rfl
    all_goals simp_all
  · rw [hf, ReadOut.ends_ok]
    simp only [ReaderSide.setN_eof, ReaderSide.setN_src] at he hby
    have hge := List.getElem?_eq_none_iff.mp hby
    have hp : r.src.pos = r.src.bytes.length := by omega
    refine ⟨⟨⟨?_, ?_, ?_, ?_, ?_, ?_, ?_, ?_, ?_, ?_⟩, ?_⟩, ?_⟩ <;>
      simp_all [ReaderSide.rem]

/-! ### Reads -/

/-- `RDBIT()` hands out the next remaining bit; it ends in `EOS` exactly when none remains, with nothing changed (R72, R114). -/
theorem readBit_spec {r : ReaderSide} (h : ReaderReady r) :
    (readBit r).Ends (fun b r' => ReaderReady r' ∧ r.rem = b :: r'.rem)
      (fun r' => r' = r ∧ r.rem = [] ∧ r.br.eof = true) False := by
  unfold readBit
  by_cases hn : r.br.n = 0
  · simp only [hn, if_true, ReadOut.ends_eos]
    exact ⟨trivial, (rem_nil_iff h).mpr hn, h.inv.2.1 h.bound hn⟩
  · have hp := count_pred hn
    have hrem : r.rem = r.br.buf.getLsbD (r.br.n - 1).toNat ::
        (bitsLow r.br.buf (r.br.n - 1).toNat ++ streamBits (r.src.bytes.drop r.src.pos)) := by
      rw [ReaderSide.rem, ← hp, bitsLow_succ]; rfl
    simp only [hn, if_false]
    by_cases h0 : r.br.n - 1 = 0
    · simp only [h0, if_true]
      refine (fill_emptied h).bind (fun _ r' hr => ?_) (fun _ => False.elim) id
      rw [ReadOut.ends_ok, hrem, hr.2, h0]
      exact ⟨hr.1, rfl⟩
    · simp only [h0, if_false, ReadOut.ends_ok]
      refine ⟨?_, hrem⟩
      obtain ⟨⟨h1, h2, h3, h4, h5, h6, h7, h8, h9, h10⟩, hb⟩ := h
      have h8' : r.br.n - 1 ≠ 8 := by rw [Ne, count_eq_eight_iff]; omega
      refine ⟨⟨?_, ?_, ?_, ?_, ?_, ?_, ?_, ?_, ?_, ?_⟩, ?_⟩ <;> simp_all
      omega

/-- `RDBYTE()` hands out the next eight remaining bits at any offset; it ends in `EOS` exactly when fewer remain, with every bit
kept and `eof` set (R73, R39, R115). -/
theorem readByte_spec {r : ReaderSide} (h : ReaderReady r) :
    (readByte r).Ends (fun b r' => ReaderReady r' ∧ r.rem = byteBits b ++ r'.rem)
      (fun r' => ReaderReady r' ∧ r'.rem = r.rem ∧ r.rem.length < 8 ∧ r'.br.eof = true) False := by
  unfold readByte
  by_cases hn : r.br.n = 0
  · simp only [hn, if_true, ReadOut.ends_eos]
    have hr := (rem_nil_iff h).mpr hn
    exact ⟨h, trivial, by simp [hr], h.inv.2.1 h.bound hn⟩
  · by_cases h8 : r.br.n = 8
    · simp only [h8, if_true]
      refine (fill_emptied h).bind (fun _ r' hr => ?_) (fun _ => False.elim) id
      rw [ReadOut.ends_ok, hr.2, ReaderSide.rem, h8]
      exact ⟨hr.1, rfl⟩
    · simp only [hn, h8, if_false]
      rw [count_eq_eight_iff] at h8
      have hn' : r.br.n.toNat ≠ 0 := by rwa [Ne, ← count_eq_zero_iff]
      have hlt : r.br.n.toNat < 8 := by have := h.inv.1; omega
      obtain ⟨he, hf⟩ | ⟨he, hr, hf⟩ | ⟨he, hr, b, hby, hf⟩ | ⟨he, hr, hby, hf⟩ := fill_cases r
      · rw [hf]
        simp only [ReadOut.bind_ok, Bool.false_eq_true, if_false, ReadOut.ends_eos]
        refine ⟨h, trivial, ?_, he⟩
        rw [rem_of_eof h he, bitsLow_length]; exact hlt
      · rw [h.inv.2.2.2.2.2.2.2.2.1 h.bound] at hr; simp at hr
      · rw [hf]
        simp only [ReadOut.bind_ok, if_true, ReadOut.ends_ok]
        have hle := (List.getElem?_eq_some_iff.mp hby).1
        constructor
        · obtain ⟨⟨h1, h2, h3, h4, h5, h6, h7, h8, h9, h10⟩, hb⟩ := h
          refine ⟨⟨?_, ?_, ?_, ?_, ?_, ?_, ?_, ?_, ?_, ?_⟩, ?_⟩ <;> simp_all
        · rw [ReaderSide.rem, streamBits_drop hby, bitsLow_byte_split r.br.n.toNat (by omega) b,
            byteBits_splice _ (by omega)]
          simp [ReaderSide.rem]
      · rw [hf]
        simp only [ReadOut.bind_ok, Bool.false_eq_true, if_false, ReadOut.ends_eos]
        have hge := List.getElem?_eq_none_iff.mp hby
        have hpos : r.src.pos = r.src.bytes.length := by have := h.inv.2.2.2.2.2.2.2.1; omega
        refine ⟨?_, rfl, ?_, trivial⟩
        · obtain ⟨⟨h1, h2, h3, h4, h5, h6, h7, h8, h9, h10⟩, hb⟩ := h
          refine ⟨⟨?_, ?_, ?_, ?_, ?_, ?_, ?_, ?_, ?_, ?_⟩, ?_⟩ <;> simp_all
          intro hc; rw [hc] at hlt; exact absurd hlt (by decide)
        · rw [rem_length, hpos]; omega

/-- `k` byte reads hand out the next `8 * k` bits; on `EOS` the whole bytes are gone and the odd bits stay (R115). -/
theorem readBytes_spec (k : Nat) {r : ReaderSide} (h : ReaderReady r) :
    (readBytes k r).Ends (fun bs r' => ReaderReady r' ∧ bs.length = k ∧ r.rem = streamBits bs ++ r'.rem)
      (fun r' => ReaderReady r' ∧ r.rem.length < 8 * k ∧ r'.rem = r.rem.drop (8 * (r.rem.length / 8)) ∧ r'.br.eof = true)
      False := by
  induction k generalizing r with
  | zero => exact ⟨h, rfl, rfl⟩
  | succ k ih =>
    refine (readByte_spec h).bind (fun b r1 hb => ?_) (fun r1 hb => ?_) id
    · refine (ih hb.1).bind (fun bs r2 hbs => ?_) (fun r2 hbs => ?_) id
      · rw [ReadOut.ends_ok, hb.2, hbs.2.2, List.length_cons, hbs.2.1, streamBits_cons, List.append_assoc]
        exact ⟨hbs.1, rfl, rfl⟩
      · obtain ⟨hr, hl, hd, he⟩ := hbs
        have hlen : r.rem.length = 8 + r1.rem.length := by rw [hb.2]; simp
        refine ⟨hr, by omega, ?_, he⟩
        have hdiv : 8 * (r.rem.length / 8) = 8 + 8 * (r1.rem.length / 8) := by omega
        rw [hd, hdiv, hb.2, ← List.drop_drop, List.drop_left' (by simp)]
    · obtain ⟨hr, he, hl, heof⟩ := hb
      have hdiv : 8 * (r.rem.length / 8) = 0 := by omega
      rw [hdiv]
      exact ⟨hr, by omega, he, heof⟩

/-- A quantity of `k` bytes on `w` bits (R115). -/
theorem readQuantity_spec (w k : Nat) (hw : 8 * k ≤ w) {r : ReaderSide} (h : ReaderReady r) :
    (readQuantity w k r).Ends
      (fun v r' => ReaderReady r' ∧ 8 * k ≤ r.rem.length ∧ v.toNat = val (r.rem.take (8 * k)) ∧ r'.rem = r.rem.drop (8 * k))
      (fun r' => ReaderReady r' ∧ r.rem.length < 8 * k ∧ r'.rem = r.rem.drop (8 * (r.rem.length / 8)) ∧ r'.br.eof = true)
      False := by
  refine (readBytes_spec k h).map (fun bs r' hv => ?_)
  obtain ⟨hr, hl, hrem⟩ := hv
  have hlen : (streamBits bs).length = 8 * k := by rw [streamBits_length, hl]
  refine ⟨hr, by rw [hrem, List.length_append]; omega, ?_, ?_⟩
  · rw [joinBytes_toNat bs (by rw [hl]; exact hw), hrem, List.take_left' hlen]
  · rw [hrem, List.drop_left' hlen]

/-- The bit-by-bit loop: the next `k` bits below those already in `x`; on `EOS` every bit is gone (R114). -/
theorem readLoop_spec (k : Nat) (x : BitVec 32) {r : ReaderSide} (h : ReaderReady r) (hx : x.toNat * 2 ^ k + 2 ^ k ≤ 2 ^ 32) :
    (readLoop k x r).Ends
      (fun v r' => ReaderReady r' ∧ k ≤ r.rem.length ∧ v.toNat = x.toNat * 2 ^ k + val (r.rem.take k) ∧ r'.rem = r.rem.drop k)
      (fun r' => ReaderReady r' ∧ r.rem.length < k ∧ r'.rem = [] ∧ r'.br.eof = true) False := by
  induction k generalizing x r with
  | zero => simp [readLoop, h]
  | succ k ih =>
    refine (readBit_spec h).bind (fun b r1 hb => ?_) (fun r1 hb => ?_) id
    · have hbl := b.toNat_lt
      have hpos : 0 < 2 ^ k := Nat.two_pow_pos k
      have hxb : (2 * x.toNat + b.toNat) * 2 ^ k + 2 ^ k ≤ 2 ^ 32 := by
        rw [pow_succ] at hx; nlinarith
      have hx1 : (appendBit x b).toNat = 2 * x.toNat + b.toNat := appendBit_toNat x b (by nlinarith)
      refine (ih (appendBit x b) hb.1 (by rw [hx1]; exact hxb)).mono (fun v r2 hv => ?_) (fun r2 hv => ?_) id
      · obtain ⟨hr, hl, hval, hd⟩ := hv
        rw [hb.2]
        refine ⟨hr, by simp; omega, ?_, by simpa using hd⟩
        rw [hval, hx1, List.take_succ_cons, ← List.singleton_append, val_append, List.length_take, Nat.min_eq_left hl,
          pow_succ]
        simp [val]; ring
      · obtain ⟨hr, hl, hd, he⟩ := hv
        refine ⟨hr, ?_, hd, he⟩
        rw [hb.2]; simp; omega
    · obtain ⟨rfl, hnil, he⟩ := hb
      exact ⟨h, by simp [hnil], hnil, he⟩

/-- The whole-byte loop takes every whole byte; it fails exactly when odd bits are left over (R116). -/
theorem readAllLoop_spec (fuel : Nat) (out : List Byte) {r : ReaderSide} (h : ReaderReady r) (hf : r.rem.length < 8 * fuel) :
    (readAllLoop fuel out r).Ends
      (fun bs r' => ReaderReady r' ∧ r'.rem = [] ∧ r'.br.eof = true ∧ ∃ new, bs = out ++ new ∧ r.rem = streamBits new)
      (fun r' => ReaderReady r' ∧ r.rem.length % 8 ≠ 0 ∧ r'.rem = r.rem.drop (8 * (r.rem.length / 8)) ∧ r'.br.eof = true)
      False := by
  induction fuel generalizing out r with
  | zero => omega
  | succ fuel ih =>
    unfold readAllLoop
    by_cases hn : r.br.n = 0
    · simp only [hn, if_true, ReadOut.ends_ok]
      have hr := (rem_nil_iff h).mpr hn
      exact ⟨h, hr, h.inv.2.1 h.bound hn, [], by simp, by simp [hr]⟩
    · simp only [hn, if_false]
      have hne : r.rem ≠ [] := fun hc => hn ((rem_nil_iff h).mp hc)
      refine (readByte_spec h).bind (fun b r1 hb => ?_) (fun r1 hb => ?_) id
      · have hlen : r.rem.length = 8 + r1.rem.length := by rw [hb.2]; simp
        refine (ih (out ++ [b]) hb.1 (by omega)).mono (fun bs r2 hv => ?_) (fun r2 hv => ?_) id
        · obtain ⟨hr, hnil, he, new, hbs, hrem⟩ := hv
          exact ⟨hr, hnil, he, b :: new, by simp [hbs], by rw [hb.2, hrem, streamBits_cons]⟩
        · obtain ⟨hr, hl, hd, he⟩ := hv
          refine ⟨hr, by omega, ?_, he⟩
          have hdiv : 8 * (r.rem.length / 8) = 8 + 8 * (r1.rem.length / 8) := by omega
          rw [hd, hdiv, hb.2, ← List.drop_drop, List.drop_left' (by simp)]
      · obtain ⟨hr, he, hl, heof⟩ := hb
        have hdiv : 8 * (r.rem.length / 8) = 0 := by omega
        have hpos : r.rem.length ≠ 0 := by simpa using hne
        rw [hdiv]
        exact ⟨hr, by omega, he, heof⟩

theorem readAllFuel_enough {r : ReaderSide} (h : ReaderReady r) : r.rem.length < 8 * readAllFuel r := by
  rw [rem_length, readAllFuel]
  have := h.inv.1
  omega

/-- More fuel than `RDALL` takes changes nothing: the bound of log entry 11 is never met. -/
theorem readAll_fuel (fuel : Nat) (out : List Byte) {r : ReaderSide} (h : ReaderReady r) (hf : r.rem.length < 8 * fuel) :
    readAllLoop (fuel + 1) out r = readAllLoop fuel out r := by
  induction fuel generalizing out r with
  | zero => omega
  | succ fuel ih =>
    by_cases hn : r.br.n = 0
    · simp [readAllLoop, hn]
    · have hs := readByte_spec h
      rw [readAllLoop, readAllLoop]
      cases hb : readByte r with
      | ok b r1 =>
        rw [hb] at hs
        have hlen : r.rem.length = 8 + r1.rem.length := by rw [hs.2]; simp
        simp [ih (out ++ [b]) hs.1 (by omega)]
      | eos r1 => simp
      | fault f => simp

theorem readAll_spec {r : ReaderSide} (h : ReaderReady r) :
    (readAll r).Ends (fun bs r' => ReaderReady r' ∧ r'.rem = [] ∧ r'.br.eof = true ∧ r.rem = streamBits bs)
      (fun r' => ReaderReady r' ∧ r.rem.length % 8 ≠ 0 ∧ r'.rem = r.rem.drop (8 * (r.rem.length / 8)) ∧ r'.br.eof = true)
      False := by
  refine (readAllLoop_spec _ [] h (readAllFuel_enough h)).mono (fun bs r' hv => ?_) (fun _ hv => hv) id
  obtain ⟨hr, hnil, he, new, hbs, hrem⟩ := hv
  exact ⟨hr, hnil, he, by rw [hrem, hbs]; rfl⟩

/-- `RDBITS r` past its prologue, for every legal width (R114): a success is the same for all of them; a failure loses every bit
in the bit-by-bit path and the whole bytes in the others. -/
theorem readWidth_spec (k : Nat) (hk : widthLegal k) {r : ReaderSide} (h : ReaderReady r) :
    (readWidth k r).Ends
      (fun v r' => ReaderReady r' ∧ k ≤ r.rem.length ∧ v.toNat = val (r.rem.take k) ∧ r'.rem = r.rem.drop k)
      (fun r' => ReaderReady r' ∧ r.rem.length < k ∧ r'.br.eof = true ∧
        r'.rem = if k = 8 ∨ k = 16 ∨ k = 32 then r.rem.drop (8 * (r.rem.length / 8)) else []) False := by
  unfold readWidth
  by_cases h8 : k = 8
  · subst h8
    simp only [if_true, true_or]
    refine (readByte_spec h).bind (fun b r1 hb => ?_) (fun r1 hb => ?_) id
    · have hlen : (byteBits b).length = 8 := by simp
      have hb8 : b.toNat < 2 ^ 8 := b.isLt
      rw [ReadOut.ends_ok, hb.2]
      refine ⟨hb.1, by simp, ?_, by rw [List.drop_left' hlen]⟩
      rw [List.take_left' hlen, val_byteBits, BitVec.toNat_setWidth, Nat.mod_eq_of_lt (by omega)]
    · obtain ⟨hr, he, hl, heof⟩ := hb
      have hdiv : 8 * (r.rem.length / 8) = 0 := by omega
      rw [hdiv]
      exact ⟨hr, hl, heof, he⟩
  · by_cases h16 : k = 16
    · subst h16
      simp only [h8, if_false, if_true, true_or, or_true]
      refine ((readQuantity_spec 16 2 (by omega) h).map (fun v r1 hv => ?_)).mono (fun _ _ hv => hv)
        (fun r1 hv => ⟨hv.1, hv.2.1, hv.2.2.2, hv.2.2.1⟩) id
      obtain ⟨hr, hl, hval, hd⟩ := hv
      have hv16 : v.toNat < 2 ^ 16 := v.isLt
      exact ⟨hr, hl, by rw [BitVec.toNat_setWidth, Nat.mod_eq_of_lt (by omega), hval], hd⟩
    · by_cases h32 : k = 32
      · subst h32
        simp only [h8, h16, if_false, if_true, or_true]
        exact (readQuantity_spec 32 4 (by omega) h).mono (fun _ _ hv => hv)
          (fun r1 hv => ⟨hv.1, hv.2.1, hv.2.2.2, hv.2.2.1⟩) id
      · simp only [h8, h16, h32, if_false, or_self]
        have hpow : 2 ^ k ≤ 2 ^ 32 := Nat.pow_le_pow_right (by omega) hk.2
        refine (readLoop_spec k 0 h (by simpa using hpow)).mono (fun v r1 hv => ?_)
          (fun r1 hv => ⟨hv.1, hv.2.1, hv.2.2.2, hv.2.2.1⟩) id
        simpa using hv

/-- `RBIND`'s first fetch: the reader is ready, and every byte from `pos` on remains (R71, R113). -/
theorem bindReader_spec {r : ReaderSide} (hp : r.src.pos ≤ r.src.bytes.length) (hrel : r.src.released = false) :
    (bindReader r).Ends (fun _ r' => ReaderReady r' ∧ r'.rem = streamBits (r.src.bytes.drop r.src.pos)) (fun _ => False) False := by
  unfold bindReader
  obtain ⟨he, hf⟩ | ⟨he, hr, hf⟩ | ⟨he, hr, b, hby, hf⟩ | ⟨he, hr, hby, hf⟩ :=
    fill_cases { r with br := { buf := 0x00, n := 0, eof := false, life := .bound } }
  · simp at he
  · simp [hrel] at hr
  · rw [hf, ReadOut.ends_ok]
    have hlt := (List.getElem?_eq_some_iff.mp hby).1
    refine ⟨⟨⟨?_, ?_, ?_, ?_, ?_, ?_, ?_, ?_, ?_, ?_⟩, ?_⟩, ?_⟩
    case refine_12 => rw [streamBits_drop hby]; rfl
    all_goals simp_all
  · rw [hf, ReadOut.ends_ok]
    have hge := List.getElem?_eq_none_iff.mp hby
    have hpos : r.src.pos = r.src.bytes.length := by simp at hge; omega
    refine ⟨⟨⟨?_, ?_, ?_, ?_, ?_, ?_, ?_, ?_, ?_, ?_⟩, ?_⟩, ?_⟩ <;> simp_all [ReaderSide.rem]

end Sys2Proof.Machine
end

