-- ==== Sys2Proof/Laws/ReaderFrame.lean ====
section
/-! SUPPORT. What no read changes, in every state: the lifecycle, the source's bytes, and everything but the count once `eof` is
set (R12, R18). -/

namespace Sys2Proof.Machine

/-- What a read, or a piece of one, does to the reader's side whatever it was before. -/
def ReaderMoves (r r' : ReaderSide) : Prop :=
  r'.br.life = r.br.life ∧ r'.src.bytes = r.src.bytes ∧ r'.src.released = r.src.released ∧ r.src.pos ≤ r'.src.pos ∧
  (r.br.eof = true → r'.br.eof = true ∧ r'.src = r.src ∧ r'.br.buf = r.br.buf)

theorem ReaderMoves.refl (r : ReaderSide) : ReaderMoves r r := by
  refine ⟨rfl, rfl, rfl, le_refl _, fun h => ⟨h, rfl, rfl⟩⟩

theorem ReaderMoves.trans {a b c : ReaderSide} (h : ReaderMoves a b) (k : ReaderMoves b c) : ReaderMoves a c := by
  obtain ⟨h1, h2, h3, h4, h5⟩ := h
  obtain ⟨k1, k2, k3, k4, k5⟩ := k
  refine ⟨k1.trans h1, k2.trans h2, k3.trans h3, h4.trans k4, fun he => ?_⟩
  obtain ⟨e1, e2, e3⟩ := h5 he
  obtain ⟨f1, f2, f3⟩ := k5 e1
  exact ⟨f1, f2.trans e2, f3.trans e3⟩

theorem ReaderMoves.setN (r : ReaderSide) (n : Count) : ReaderMoves r (r.setN n) :=
  ⟨rfl, rfl, rfl, le_refl _, fun h => ⟨h, rfl, rfl⟩⟩

/-- However the read ends, the side has moved so; a fault leaves no side. -/
def ReadOut.Moves {α : Type} (r : ReaderSide) (o : ReadOut α) : Prop :=
  o.Ends (fun _ r' => ReaderMoves r r') (fun r' => ReaderMoves r r') True

theorem ReadOut.Moves.bind {α β : Type} {r : ReaderSide} {o : ReadOut α} {k : α → ReaderSide → ReadOut β}
    (h : o.Moves r) (hk : ∀ v r', (k v r').Moves r') : (o.bind k).Moves r :=
  Ends.bind h (fun v r' hr => (hk v r').mono (fun _ _ h' => hr.trans h') (fun _ h' => hr.trans h') id) (fun _ h' => h') id

theorem ReadOut.Moves.map {α β : Type} {r : ReaderSide} {o : ReadOut α} (g : α → β) (h : o.Moves r) : (o.map g).Moves r :=
  h.bind fun _ r' => ReaderMoves.refl r'

theorem fill_moves (r : ReaderSide) : (fill r).Moves r := by
  obtain ⟨he, hf⟩ | ⟨he, hr, hf⟩ | ⟨he, hr, b, hby, hf⟩ | ⟨he, hr, hby, hf⟩ := fill_cases r <;>
    simp [hf, ReadOut.Moves, ReaderMoves, he]

theorem readBit_moves (r : ReaderSide) : (readBit r).Moves r := by
  unfold readBit
  by_cases hn : r.br.n = 0
  · simp only [hn, if_true]; exact ReaderMoves.refl r
  · by_cases h0 : r.br.n - 1 = 0
    · simp only [hn, h0, if_true, if_false]
      refine ReadOut.Ends.bind (fill_moves (r.setN 0)) (fun _ r' hr => (ReaderMoves.setN r 0).trans hr)
        (fun _ hr => (ReaderMoves.setN r 0).trans hr) id
    · simp only [hn, h0, if_false]; exact ReaderMoves.setN r (r.br.n - 1)

theorem readByte_moves (r : ReaderSide) : (readByte r).Moves r := by
  unfold readByte
  by_cases hn : r.br.n = 0
  · simpa [hn, ReadOut.Moves] using ReaderMoves.refl r
  · by_cases h8 : r.br.n = 8
    · simp only [h8, if_true]
      refine ReadOut.Ends.bind (fill_moves (r.setN 0)) (fun _ r' hr => (ReaderMoves.setN r 0).trans hr)
        (fun _ hr => (ReaderMoves.setN r 0).trans hr) id
    · simp only [hn, h8, if_false]
      refine (fill_moves r).bind fun loaded r' => ?_
      cases loaded
      · exact ReaderMoves.refl r'
      · exact ReaderMoves.setN r' r.br.n

theorem readBytes_moves (k : Nat) (r : ReaderSide) : (readBytes k r).Moves r := by
  induction k generalizing r with
  | zero => exact ReaderMoves.refl r
  | succ k ih => exact (readByte_moves r).bind fun b r' => (ih r').bind fun _ r'' => ReaderMoves.refl r''

theorem readQuantity_moves (w k : Nat) (r : ReaderSide) : (readQuantity w k r).Moves r := (readBytes_moves k r).map _

theorem readLoop_moves (k : Nat) (x : BitVec 32) (r : ReaderSide) : (readLoop k x r).Moves r := by
  induction k generalizing x r with
  | zero => exact ReaderMoves.refl r
  | succ k ih => exact (readBit_moves r).bind fun b r' => ih _ r'

theorem readWidth_moves (k : Nat) (r : ReaderSide) : (readWidth k r).Moves r := by
  unfold readWidth
  split
  · exact (readByte_moves r).map _
  · split
    · exact (readQuantity_moves 16 2 r).map _
    · split
      · exact readQuantity_moves 32 4 r
      · exact readLoop_moves k 0 r

theorem readAllLoop_moves (fuel : Nat) (out : List Byte) (r : ReaderSide) : (readAllLoop fuel out r).Moves r := by
  induction fuel generalizing out r with
  | zero => exact ReaderMoves.refl r
  | succ fuel ih =>
    unfold readAllLoop
    split
    · exact ReaderMoves.refl r
    · exact (readByte_moves r).bind fun b r' => ih _ r'

theorem readAll_moves (r : ReaderSide) : (readAll r).Moves r := readAllLoop_moves _ _ r

end Sys2Proof.Machine
end

