-- ==== Sys2Proof/Laws/Writer.lean ====
section
/-! SUPPORT. What each shared operation of the writer can do, said once, in terms of the bits laid down (R37, R117, R118). -/

namespace Sys2Proof.Machine

/-- A bound writer that keeps its invariants, with its sink open (R33). -/
def WriterReady (w : WriterSide) : Prop := WriterInv w ∧ w.bw.life = .bound ∧ w.snk.closed = false

/-- The length of the bits laid down (R37). -/
theorem written_length (w : WriterSide) : w.written.length = 8 * w.snk.bytes.length + w.bw.n.toNat := by
  simp [WriterSide.written]

/-- `BW.n` and `|SNK.bytes|` are the remainder and the quotient of the bits laid down (R117). -/
theorem written_position {w : WriterSide} (h : WriterInv w) :
    w.bw.n.toNat = w.written.length % 8 ∧ w.snk.bytes.length = w.written.length / 8 := by
  have := h.1
  rw [written_length]
  omega

theorem Sink.put_open {k : Sink} (h : k.closed = false) (b : Byte) : k.put b = .ok { k with bytes := k.bytes ++ [b] } := by
  simp [Sink.put, h]

theorem Sink.put_closed {k : Sink} (h : k.closed = true) (b : Byte) : k.put b = .error .sinkClosed := by
  simp [Sink.put, h]

theorem emit_open {w : WriterSide} (h : w.snk.closed = false) (b : Byte) :
    emit b w = .ok { bw := { w.bw with buf := 0x00, n := 0 }, snk := { w.snk with bytes := w.snk.bytes ++ [b] } } := by
  simp [emit, Sink.put_open h]

theorem emit_closed {w : WriterSide} (h : w.snk.closed = true) (b : Byte) : emit b w = .error .sinkClosed := by
  simp [emit, Sink.put_closed h]

theorem emit_ready {w : WriterSide} (h : WriterReady w) (b : Byte) :
    ∃ w', emit b w = .ok w' ∧ WriterReady w' ∧ w'.bw.n = 0 ∧ w'.written = streamBits w.snk.bytes ++ byteBits b ∧
      w'.snk.bytes = w.snk.bytes ++ [b] := by
  refine ⟨_, emit_open h.2.2 b, ?_, rfl, ?_, rfl⟩
  · obtain ⟨⟨h1, h2, h3, h4⟩, hb, hc⟩ := h
    refine ⟨⟨by simp, by simp, ?_, ?_⟩, hb, hc⟩ <;> simp [hb]
  · simp [WriterSide.written]

/-- The pad of an explicit flush: the pending bits, then zeros (R40). -/
theorem byteBits_padded (n : Nat) (h : n ≤ 8) (buf : Byte) :
    byteBits (padded n buf) = bitsLow buf n ++ List.replicate (8 - n) false := by
  have e : byteBits (padded n buf) = bitsLow (padded n buf) (n + (8 - n)) := by rw [byteBits, Nat.add_sub_cancel' h]
  have z : ∀ k ≤ 8 - n, bitsLow (padded n buf) k = List.replicate k false := by
    intro k hk
    induction k with
    | zero => rfl
    | succ k ih =>
      rw [bitsLow_succ, ih (by omega), List.replicate_succ]
      have : k < 8 - n := by omega
      simp [padded, this]
  rw [e, bitsLow_add, z _ (le_refl _)]
  congr 1
  apply bitsLow_congr
  intro i hi
  have h1 : 8 - n + i < 8 := by omega
  simp [padded, h1, BitVec.getLsbD_eq_getElem (show i < 8 by omega)]

/-- `WRBIT-body` lays down one bit (R91, R117). -/
theorem writeBit_spec {w : WriterSide} (h : WriterReady w) (b : Bool) :
    ∃ w', writeBit b w = .ok w' ∧ WriterReady w' ∧ w'.written = w.written ++ [b] ∧ w.snk.bytes <+: w'.snk.bytes := by
  have hn := h.1.1
  have hbuf := h.1.2.1
  have hbits : bitsLow (appendBit w.bw.buf b) (w.bw.n.toNat + 1) = bitsLow w.bw.buf w.bw.n.toNat ++ [b] :=
    bitsLow_appendBit _ _ _ (by omega)
  by_cases h8 : w.bw.n + 1 = 8
  · have hn7 : w.bw.n.toNat = 7 := by
      have : w.bw.n = 7 := by bv_omega
      rw [this]; rfl
    obtain ⟨w', he, hr, -, hw, hby⟩ := emit_ready h (appendBit w.bw.buf b)
    refine ⟨w', by simp only [writeBit, h8, if_true]; exact he, hr, ?_, by rw [hby]; exact List.prefix_append _ _⟩
    rw [hw, WriterSide.written, byteBits, List.append_assoc, ← hbits, hn7]
  · have hne : w.bw.n.toNat ≠ 7 := by
      intro hc; apply h8
      have : w.bw.n = 7 := BitVec.eq_of_toNat_eq hc
      rw [this]; rfl
    have hsucc : (w.bw.n + 1).toNat = w.bw.n.toNat + 1 := by bv_omega
    have hlt : 2 * w.bw.buf.toNat + b.toNat < 2 ^ (w.bw.n.toNat + 1) := by
      have := b.toNat_lt; rw [pow_succ]; omega
    have h256 : 2 ^ (w.bw.n.toNat + 1) ≤ 2 ^ 8 := Nat.pow_le_pow_right (by omega) (by omega)
    refine ⟨{ w with bw := { w.bw with buf := appendBit w.bw.buf b, n := w.bw.n + 1 } }, by simp only [writeBit, h8, if_false], ?_, ?_, List.prefix_refl _⟩
    · obtain ⟨⟨h1, h2, h3, h4⟩, hb, hc⟩ := h
      refine ⟨⟨?_, ?_, ?_, ?_⟩, hb, hc⟩
      · simp only [hsucc]; omega
      · simp only [hsucc]; rw [appendBit_toNat _ _ (by omega)]; exact hlt
      · simp [hb]
      · simp [hb]
    · simp only [WriterSide.written, hsucc, hbits, List.append_assoc]

/-- `k` bits from bit `k - 1` down to bit 0 (R117). -/
theorem writeBits_spec {m : Nat} (v : BitVec m) (k : Nat) {w : WriterSide} (h : WriterReady w) :
    ∃ w', writeBits v k w = .ok w' ∧ WriterReady w' ∧ w'.written = w.written ++ bitsLow v k ∧ w.snk.bytes <+: w'.snk.bytes := by
  induction k generalizing w with
  | zero => exact ⟨w, rfl, h, by simp, List.prefix_refl _⟩
  | succ k ih =>
    obtain ⟨w1, h1, hr1, hw1, hp1⟩ := writeBit_spec h (v.getLsbD k)
    obtain ⟨w2, h2, hr2, hw2, hp2⟩ := ih hr1
    refine ⟨w2, by simp [writeBits, h1, h2], hr2, ?_, hp1.trans hp2⟩
    rw [hw2, hw1, bitsLow_succ, List.append_assoc, List.singleton_append]

theorem writeByte_spec (x : Byte) {w : WriterSide} (h : WriterReady w) :
    ∃ w', writeByte x w = .ok w' ∧ WriterReady w' ∧ w'.written = w.written ++ byteBits x ∧ w.snk.bytes <+: w'.snk.bytes :=
  writeBits_spec x 8 h

theorem byteBits_byteOf {m : Nat} (v : BitVec m) (k : Nat) :
    byteBits (byteOf v k) ++ bitsLow v (8 * k) = bitsLow v (8 * (k + 1)) := by
  have e : 8 * (k + 1) = 8 + 8 * k := by omega
  rw [e, bitsLow_add, byteBits]
  congr 1
  apply bitsLow_congr
  intro i hi
  simp [byteOf, hi]

/-- `k` bytes, most significant first: the low `8 * k` bits (R117). -/
theorem writeBytes_spec {m : Nat} (v : BitVec m) (k : Nat) {w : WriterSide} (h : WriterReady w) :
    ∃ w', writeBytes v k w = .ok w' ∧ WriterReady w' ∧ w'.written = w.written ++ bitsLow v (8 * k) ∧
      w.snk.bytes <+: w'.snk.bytes := by
  induction k generalizing w with
  | zero => exact ⟨w, rfl, h, by simp, List.prefix_refl _⟩
  | succ k ih =>
    obtain ⟨w1, h1, hr1, hw1, hp1⟩ := writeByte_spec (byteOf v k) h
    obtain ⟨w2, h2, hr2, hw2, hp2⟩ := ih hr1
    refine ⟨w2, by simp [writeBytes, h1, h2], hr2, ?_, hp1.trans hp2⟩
    rw [hw2, hw1, List.append_assoc, byteBits_byteOf]

/-- `WRBITS r` past its prologue: the special case of 32 changes nothing (R96, R117). -/
theorem writeWidth_spec (k : Nat) (v : Data) {w : WriterSide} (h : WriterReady w) :
    ∃ w', writeWidth k v w = .ok w' ∧ WriterReady w' ∧ w'.written = w.written ++ bitsLow v k ∧ w.snk.bytes <+: w'.snk.bytes := by
  unfold writeWidth
  by_cases hk : k = 32
  · subst hk; simpa using writeBytes_spec v 4 h
  · simpa [hk] using writeBits_spec v k h

/-- `FLUSH-body`: the pad of R118, and nothing left pending. -/
theorem flushBody_spec {w : WriterSide} (h : WriterReady w) :
    ∃ w', flushBody w = .ok w' ∧ WriterReady w' ∧ w'.bw.n = 0 ∧ w'.written = w.written ++ padOf w.written.length ∧
      w'.snk.bytes.length = (w.written.length + 7) / 8 ∧ w.snk.bytes <+: w'.snk.bytes := by
  have hn := h.1.1
  have hl := written_length w
  by_cases h0 : w.bw.n = 0
  · have hz : w.bw.n.toNat = 0 := by rw [h0]; rfl
    have hp : (8 - w.written.length % 8) % 8 = 0 := by omega
    exact ⟨w, by simp [flushBody, h0], h, h0, by simp [padOf, hp], by omega, List.prefix_refl _⟩
  · have hz : w.bw.n.toNat ≠ 0 := fun hc => h0 (BitVec.eq_of_toNat_eq hc)
    obtain ⟨w', he, hr, hn0, hw, hby⟩ := emit_ready h (padded w.bw.n.toNat w.bw.buf)
    have hp : (8 - w.written.length % 8) % 8 = 8 - w.bw.n.toNat := by omega
    refine ⟨w', by simp only [flushBody, h0, if_false]; exact he, hr, hn0, ?_, ?_, by rw [hby]; exact List.prefix_append _ _⟩
    · rw [hw, byteBits_padded _ (by omega), padOf, hp, WriterSide.written, List.append_assoc]
    · rw [hby, List.length_append, List.length_singleton]; omega

/-! ### In every state: what no write changes -/

/-- What a write, or a piece of one, does to the writer's side whatever it was before. -/
def WriterMoves (w w' : WriterSide) : Prop :=
  w'.bw.life = w.bw.life ∧ w'.snk.closed = w.snk.closed ∧ w.snk.bytes <+: w'.snk.bytes

theorem WriterMoves.refl (w : WriterSide) : WriterMoves w w := ⟨rfl, rfl, List.prefix_refl _⟩

theorem WriterMoves.trans {a b c : WriterSide} (h : WriterMoves a b) (k : WriterMoves b c) : WriterMoves a c :=
  ⟨k.1.trans h.1, k.2.1.trans h.2.1, h.2.2.trans k.2.2⟩

/-- The two ends of a byte sent to the sink (R33). -/
theorem emit_cases (b : Byte) (w : WriterSide) :
    (w.snk.closed = true ∧ emit b w = .error .sinkClosed) ∨
    (w.snk.closed = false ∧
      emit b w = .ok { bw := { w.bw with buf := 0x00, n := 0 }, snk := { w.snk with bytes := w.snk.bytes ++ [b] } }) := by
  cases hc : w.snk.closed
  · exact .inr ⟨rfl, emit_open hc b⟩
  · exact .inl ⟨rfl, emit_closed hc b⟩

theorem emit_moves {b : Byte} {w w' : WriterSide} (h : emit b w = .ok w') : WriterMoves w w' := by
  obtain ⟨-, he⟩ | ⟨-, he⟩ := emit_cases b w
  · rw [he] at h; cases h
  · rw [he] at h; cases h
    exact ⟨rfl, rfl, List.prefix_append _ _⟩

theorem writeBit_moves {b : Bool} {w w' : WriterSide} (h : writeBit b w = .ok w') : WriterMoves w w' := by
  simp only [writeBit] at h
  split at h
  · exact emit_moves h
  · cases h; exact WriterMoves.refl w

theorem writeBits_moves {m : Nat} (v : BitVec m) (k : Nat) {w w' : WriterSide} (h : writeBits v k w = .ok w') : WriterMoves w w' := by
  induction k generalizing w with
  | zero => cases h; exact WriterMoves.refl _
  | succ k ih =>
    rw [writeBits] at h
    cases h1 : writeBit (v.getLsbD k) w with
    | ok w1 => rw [h1] at h; exact (writeBit_moves h1).trans (ih h)
    | error f => rw [h1] at h; cases h

theorem writeBytes_moves {m : Nat} (v : BitVec m) (k : Nat) {w w' : WriterSide} (h : writeBytes v k w = .ok w') : WriterMoves w w' := by
  induction k generalizing w with
  | zero => cases h; exact WriterMoves.refl _
  | succ k ih =>
    rw [writeBytes] at h
    cases h1 : writeByte (byteOf v k) w with
    | ok w1 => rw [h1] at h; exact (writeBits_moves _ 8 h1).trans (ih h)
    | error f => rw [h1] at h; cases h

theorem writeWidth_moves (k : Nat) (v : Data) {w w' : WriterSide} (h : writeWidth k v w = .ok w') : WriterMoves w w' := by
  unfold writeWidth at h
  split at h
  · exact writeBytes_moves v 4 h
  · exact writeBits_moves v k h

theorem flushBody_moves {w w' : WriterSide} (h : flushBody w = .ok w') : WriterMoves w w' := by
  unfold flushBody at h
  split at h
  · cases h; exact WriterMoves.refl w
  · exact emit_moves h

end Sys2Proof.Machine
end

