-- ==== Sys2Proof/Laws/Commands.lean ====
section
/-! SUPPORT. How a command ends, and what one step can do: the inversion lemmas of the shared operations of Machine/Ops.lean and
Machine/Inputs.lean. -/

namespace Sys2Proof.Machine

@[simp] theorem raiseOn_reader (st : Status) (s : State) :
    raiseOn .reader st s = .next (s.answerReader { status := st, rdata := 0, rbytes := [] }) := rfl

@[simp] theorem raiseOn_writer (st : Status) (s : State) :
    raiseOn .writer st s = .next (s.answerWriter { status := st, rdata := 0 }) := rfl

/-- A reader body that has run ends in a result or in `EOS`, with the side it left. -/
theorem finishReader_next {α : Type} {rdata : α → Data} {rbytes : α → List Byte} {s t : State} {o : ReadOut α}
    (h : finishReader rdata rbytes s o = .next t) :
    (∃ v r, o = .ok v r ∧ t = (s.setReader r).answerReader { status := .ok, rdata := rdata v, rbytes := rbytes v }) ∨
    (∃ r, o = .eos r ∧ t = (s.setReader r).answerReader { status := .eos, rdata := 0, rbytes := [] }) := by
  cases o with
  | ok v r => cases h; exact .inl ⟨v, r, rfl, rfl⟩
  | eos r => cases h; exact .inr ⟨r, rfl, rfl⟩
  | fault f => cases h

/-- A writer body that has run ends in `ST_OK`, with the side it left. -/
theorem finishWriter_next {s t : State} {o : Except Fault WriterSide} (h : finishWriter s o = .next t) :
    ∃ w, o = .ok w ∧ t = (s.setWriter w).answerWriter { status := .ok, rdata := 0 } := by
  cases o with
  | ok w => cases h; exact ⟨w, rfl, rfl⟩
  | error f => cases h

/-- A data read: `ST_STATE` unless bound, else what its body does. -/
theorem dataRead_next {α : Type} {body : ReaderSide → ReadOut α} {rdata : α → Data} {rbytes : α → List Byte} {s t : State}
    (h : dataRead body rdata rbytes s = .next t) :
    (s.br.life = .bound ∧ ∃ v r, body s.readerSide = .ok v r ∧
      t = (s.setReader r).answerReader { status := .ok, rdata := rdata v, rbytes := rbytes v }) ∨
    (s.br.life = .bound ∧ ∃ r, body s.readerSide = .eos r ∧
      t = (s.setReader r).answerReader { status := .eos, rdata := 0, rbytes := [] }) ∨
    (s.br.life ≠ .bound ∧ t = s.answerReader { status := .state, rdata := 0, rbytes := [] }) := by
  unfold dataRead at h
  split at h
  · rename_i hb
    obtain h1 | h1 := finishReader_next h
    · exact .inl ⟨hb, h1⟩
    · exact .inr (.inl ⟨hb, h1⟩)
  · rename_i hb
    cases h; exact .inr (.inr ⟨hb, rfl⟩)

/-- A write or a flush: `ST_STATE` unless bound, else what its body does. -/
theorem dataWrite_next {body : WriterSide → Except Fault WriterSide} {s t : State} (h : dataWrite body s = .next t) :
    (s.bw.life = .bound ∧ ∃ w, body s.writerSide = .ok w ∧ t = (s.setWriter w).answerWriter { status := .ok, rdata := 0 }) ∨
    (s.bw.life ≠ .bound ∧ t = s.answerWriter { status := .state, rdata := 0 }) := by
  unfold dataWrite at h
  split at h
  · rename_i hb
    exact .inl ⟨hb, finishWriter_next h⟩
  · rename_i hb
    cases h; exact .inr ⟨hb, rfl⟩

/-- A data read of a bound reader whose body succeeds. -/
theorem dataRead_ok {α : Type} {body : ReaderSide → ReadOut α} {rdata : α → Data} {rbytes : α → List Byte} {s : State} {v : α}
    {r : ReaderSide} (hb : s.br.life = .bound) (h : body s.readerSide = .ok v r) :
    dataRead body rdata rbytes s =
      .next ((s.setReader r).answerReader { status := .ok, rdata := rdata v, rbytes := rbytes v }) := by
  simp [dataRead, hb, h, finishReader, returnReader]

/-- A data read of a bound reader whose body raises `EOS`. -/
theorem dataRead_eos {α : Type} {body : ReaderSide → ReadOut α} {rdata : α → Data} {rbytes : α → List Byte} {s : State}
    {r : ReaderSide} (hb : s.br.life = .bound) (h : body s.readerSide = .eos r) :
    dataRead body rdata rbytes s = .next ((s.setReader r).answerReader { status := .eos, rdata := 0, rbytes := [] }) := by
  simp [dataRead, hb, h, finishReader]

/-- A write of a bound writer whose body succeeds. -/
theorem dataWrite_ok {body : WriterSide → Except Fault WriterSide} {s : State} {w : WriterSide} (hb : s.bw.life = .bound)
    (h : body s.writerSide = .ok w) :
    dataWrite body s = .next ((s.setWriter w).answerWriter { status := .ok, rdata := 0 }) := by
  simp [dataWrite, hb, h, finishWriter, returnWriter]

/-- What a unit makes of a word on its channel. -/
theorem commandOn_some {port : Port} {w : Cmd} {i : Instr} : commandOn port w = some i ↔ decode w = .ok i ∧ i.port = port := by
  unfold commandOn
  cases h : decode w with
  | ok j =>
    by_cases hp : j.port = port
    · simp only [hp, if_true, Option.some.injEq, Except.ok.injEq]
      constructor
      · rintro rfl; exact ⟨rfl, hp⟩
      · exact fun hj => hj.1
    · simp only [hp, if_false, Except.ok.injEq]
      constructor
      · intro hc; cases hc
      · rintro ⟨rfl, hj⟩; exact absurd hj hp
  | error e => simp

theorem commandOn_none {port : Port} {w : Cmd} : commandOn port w = none ↔ ∀ i, decode w = .ok i → i.port ≠ port := by
  constructor
  · intro h i hi hp
    rw [commandOn_some.mpr ⟨hi, hp⟩] at h; cases h
  · intro h
    cases hc : commandOn port w with
    | none => rfl
    | some i => exact absurd (commandOn_some.mp hc).2 (h i (commandOn_some.mp hc).1)

theorem runCommand_some {port : Port} {w : Cmd} {i : Instr} (h : commandOn port w = some i) (d : Data) (s : State) :
    runCommand port w d s = exec i (s.setWdata port d) := by
  simp [runCommand, h]

theorem runCommand_none {port : Port} {w : Cmd} (h : commandOn port w = none) (d : Data) (s : State) :
    runCommand port w d s = raiseOn port .illegal s := by
  simp [runCommand, h]

/-- A step takes the oldest input, or holds. -/
theorem step_nil {s : State} (h : s.inputs = []) : step s = .next s := by
  simp [step, takeInput, h]

theorem step_cons {s : State} {e : Input} {rest : List Input} (h : s.inputs = e :: rest) :
    step s = handleInput e { s with inputs := rest } := by
  simp [step, takeInput, h]

/-- The next step after a word is presented handles that word, on the channel of its class. -/
theorem step_presentWord (s : State) (w : Cmd) :
    step (s.presentWord w) = handleInput (Input.command (channelOf w) w 0) s := by
  rw [step_cons (s := s.presentWord w) rfl]; rfl

/-! ### The data reads and the writes, each as one body -/

/-- The body of a data read of fixed length, its result on the bus. -/
def readBody : Instr → Option (ReaderSide → ReadOut Data)
  | .rdbit => some fun r => (readBit r).map fun b => onBus (BitVec.ofBool b)
  | .rdbyte => some fun r => (readByte r).map onBus
  | .rdshort => some fun r => (readQuantity 16 2 r).map onBus
  | .rdint => some fun r => (readQuantity 32 4 r).map onBus
  | .rdlong => some fun r => (readQuantity 64 8 r).map onBus
  | .rdbits k => some fun r => (readWidth k r).map onBus
  | _ => none

/-- What a failed read of `W` bits leaves of the remaining bits `q`: the bit-by-bit reads lose them all, the others the whole bytes
(R114, R115). -/
def leftByFailure (i : Instr) (q : List Bool) : List Bool :=
  match i with
  | .rdbit => []
  | .rdbits k => if k = 8 ∨ k = 16 ∨ k = 32 then q.drop (8 * (q.length / 8)) else []
  | _ => q.drop (8 * (q.length / 8))

theorem badWidth_rdbits (k : Nat) : badWidth (.rdbits k) = false ↔ widthLegal k := by
  simp [badWidth, widthLegal, Config.rMin, Config.rMax]; omega

theorem badWidth_wrbits (k : Nat) : badWidth (.wrbits k) = false ↔ widthLegal k := by
  simp [badWidth, widthLegal, Config.rMin, Config.rMax]; omega

theorem dataRead_map {α β : Type} (body : ReaderSide → ReadOut α) (g : α → β) (rdata : β → Data) (s : State) :
    dataRead (fun r => (body r).map g) rdata (fun _ => []) s = dataRead body (fun v => rdata (g v)) (fun _ => []) s := by
  simp only [dataRead]
  cases body s.readerSide <;> rfl

/-- A data read of legal width is its body under the prologue. -/
theorem exec_read {i : Instr} {body : ReaderSide → ReadOut Data} (h : readBody i = some body) (hw : badWidth i = false)
    (s : State) : exec i s = dataRead body (fun v => v) (fun _ => []) s := by
  cases i <;> simp only [readBody, reduceCtorEq, Option.some.injEq] at h <;> subst h
  case rdbits k =>
    rw [dataRead_map]
    have hk := (badWidth_rdbits k).mp hw
    simp only [exec, execRdbits]
    rw [if_pos hk]
  all_goals rw [dataRead_map]; rfl

theorem readBody_isSome (i : Instr) : (readBody i).isSome = (readWidthOf i).isSome := by
  cases i <;> rfl

/-- Every data read of fixed length on the remaining bits (R114, R115). -/
theorem readBody_spec {i : Instr} {body : ReaderSide → ReadOut Data} {k : Nat} (h : readBody i = some body)
    (hk : readWidthOf i = some k) (hw : badWidth i = false) {r : ReaderSide} (hr : ReaderReady r) :
    (body r).Ends
      (fun v r' => ReaderReady r' ∧ k ≤ r.rem.length ∧ v.toNat = val (r.rem.take k) ∧ r'.rem = r.rem.drop k)
      (fun r' => ReaderReady r' ∧ r.rem.length < k ∧ r'.rem = leftByFailure i r.rem ∧ r'.br.eof = true) False := by
  cases i <;> simp only [readBody, readWidthOf, reduceCtorEq, Option.some.injEq] at h hk <;> subst h <;> subst hk
  case rdbit =>
    refine (readBit_spec hr).bind (fun b r' hb => ?_) (fun r' hb => ?_) id
    · rw [ReadOut.ends_ok, hb.2]
      refine ⟨hb.1, by simp, ?_, by simp⟩
      cases b <;> simp [onBus, val]
    · obtain ⟨rfl, h1, h2⟩ := hb
      exact ⟨hr, by simp [h1], h1, h2⟩
  case rdbyte =>
    refine (readByte_spec hr).bind (fun b r' hb => ?_) (fun r' hb => ?_) id
    · have hlen : (byteBits b).length = 8 := by simp
      have hb8 : b.toNat < 2 ^ 8 := b.isLt
      rw [ReadOut.ends_ok, hb.2]
      refine ⟨hb.1, by simp, ?_, by rw [List.drop_left' hlen]⟩
      rw [List.take_left' hlen, val_byteBits, onBus, BitVec.toNat_setWidth, Nat.mod_eq_of_lt (by omega)]
    · obtain ⟨h1, h2, h3, h4⟩ := hb
      have hdiv : 8 * (r.rem.length / 8) = 0 := by omega
      exact ⟨h1, h3, by simp only [leftByFailure]; rw [h2, hdiv]; rfl, h4⟩
  case rdshort =>
    refine (readQuantity_spec 16 2 (by omega) hr).map (fun v r' hv => ?_)
    have hv' := v.isLt
    exact ⟨hv.1, hv.2.1, by rw [onBus, BitVec.toNat_setWidth, Nat.mod_eq_of_lt (by omega)]; exact hv.2.2.1, hv.2.2.2⟩
  case rdint =>
    refine (readQuantity_spec 32 4 (by omega) hr).map (fun v r' hv => ?_)
    have hv' := v.isLt
    exact ⟨hv.1, hv.2.1, by rw [onBus, BitVec.toNat_setWidth, Nat.mod_eq_of_lt (by omega)]; exact hv.2.2.1, hv.2.2.2⟩
  case rdlong =>
    refine (readQuantity_spec 64 8 (by omega) hr).map (fun v r' hv => ?_)
    have hv' := v.isLt
    exact ⟨hv.1, hv.2.1, by rw [onBus, BitVec.toNat_setWidth, Nat.mod_eq_of_lt (by omega)]; exact hv.2.2.1, hv.2.2.2⟩
  case rdbits k =>
    refine ((readWidth_spec k ((badWidth_rdbits k).mp hw) hr).map (fun v r' hv => ?_)).mono (fun _ _ hv => hv)
      (fun r' hv => ⟨hv.1, hv.2.1, hv.2.2.2, hv.2.2.1⟩) id
    have hv' := v.isLt
    exact ⟨hv.1, hv.2.1, by rw [onBus, BitVec.toNat_setWidth, Nat.mod_eq_of_lt (by omega)]; exact hv.2.2.1, hv.2.2.2⟩

theorem readBody_moves {i : Instr} {body : ReaderSide → ReadOut Data} (h : readBody i = some body) (r : ReaderSide) :
    (body r).Moves r := by
  cases i <;> simp only [readBody, reduceCtorEq, Option.some.injEq] at h <;> subst h
  · exact (readBit_moves r).map _
  · exact (readByte_moves r).map _
  · exact (readQuantity_moves 16 2 r).map _
  · exact (readQuantity_moves 32 4 r).map _
  · exact (readQuantity_moves 64 8 r).map _
  · exact (readWidth_moves _ r).map _

/-- The body of a write, as a function of the operand. -/
def writeBody : Instr → Option (Data → WriterSide → Except Fault WriterSide)
  | .wrbit => some fun d => writeBit (d.getLsbD 0)
  | .wrbyte => some fun d => writeByte (byteOf d 0)
  | .wrshort => some fun d => writeBytes d 2
  | .wrint => some fun d => writeBytes d 4
  | .wrlong => some fun d => writeBytes d 8
  | .wrbits k => some fun d => writeWidth k d
  | _ => none

/-- A write of legal width is its body under the prologue. -/
theorem exec_write {i : Instr} {body : Data → WriterSide → Except Fault WriterSide} (h : writeBody i = some body)
    (hw : badWidth i = false) (s : State) : exec i s = dataWrite (body s.bwWdata) s := by
  cases i <;> simp only [writeBody, reduceCtorEq, Option.some.injEq] at h <;> subst h
  case wrbits k =>
    have hk := (badWidth_wrbits k).mp hw
    simp only [exec, execWrbits]
    rw [if_pos hk]
  all_goals rfl

theorem writeBody_isSome (i : Instr) : (writeBody i).isSome = (writeWidthOf i).isSome := by
  cases i <;> rfl

theorem byteBits_byteOf_zero {m : Nat} (v : BitVec m) : byteBits (byteOf v 0) = bitsLow v 8 := by
  have h := byteBits_byteOf v 0
  simpa using h

/-- Every write on the bits laid down (R117). -/
theorem writeBody_spec {i : Instr} {body : Data → WriterSide → Except Fault WriterSide} {k : Nat} (h : writeBody i = some body)
    (hk : writeWidthOf i = some k) (d : Data) {w : WriterSide} (hw : WriterReady w) :
    ∃ w', body d w = .ok w' ∧ WriterReady w' ∧ w'.written = w.written ++ bitsLow d k ∧ w.snk.bytes <+: w'.snk.bytes := by
  cases i <;> simp only [writeBody, writeWidthOf, reduceCtorEq, Option.some.injEq] at h hk <;> subst h <;> subst hk
  · exact writeBit_spec hw _
  · simpa [byteBits_byteOf_zero] using writeByte_spec (byteOf d 0) hw
  · exact writeBytes_spec d 2 hw
  · exact writeBytes_spec d 4 hw
  · exact writeBytes_spec d 8 hw
  · exact writeWidth_spec _ d hw

theorem writeBody_moves {i : Instr} {body : Data → WriterSide → Except Fault WriterSide} (h : writeBody i = some body) {d : Data}
    {w w' : WriterSide} (he : body d w = .ok w') : WriterMoves w w' := by
  cases i <;> simp only [writeBody, reduceCtorEq, Option.some.injEq] at h <;> subst h
  · exact writeBit_moves he
  · exact writeBits_moves _ 8 he
  · exact writeBytes_moves _ 2 he
  · exact writeBytes_moves _ 4 he
  · exact writeBytes_moves _ 8 he
  · exact writeWidth_moves _ _ he

/-! ### What a command can do -/

/-- All that a reader command can do: the side it leaves and the response it gives. -/
inductive ReaderDoes (s : State) : Instr → ReaderSide → ReaderResponse → Prop where
  | invalid {i : Instr} (hw : badWidth i = true) : ReaderDoes s i s.readerSide { status := .invalidArg, rdata := 0, rbytes := [] }
  | wrongState {i : Instr} (hw : badWidth i = false) (hs : stateRefused i s.br.life = true) :
      ReaderDoes s i s.readerSide { status := .state, rdata := 0, rbytes := [] }
  | bind {b : Bool} {r : ReaderSide} (hl : s.br.life = .unbound) (h : bindReader s.readerSide = .ok b r) :
      ReaderDoes s .rbind r { status := .ok, rdata := 0, rbytes := [] }
  | read {i : Instr} {body : ReaderSide → ReadOut Data} {v : Data} {r : ReaderSide} (hb : readBody i = some body)
      (hw : badWidth i = false) (hl : s.br.life = .bound) (h : body s.readerSide = .ok v r) :
      ReaderDoes s i r { status := .ok, rdata := v, rbytes := [] }
  | readEos {i : Instr} {body : ReaderSide → ReadOut Data} {r : ReaderSide} (hb : readBody i = some body)
      (hw : badWidth i = false) (hl : s.br.life = .bound) (h : body s.readerSide = .eos r) :
      ReaderDoes s i r { status := .eos, rdata := 0, rbytes := [] }
  | all {bs : List Byte} {r : ReaderSide} (hl : s.br.life = .bound) (h : readAll s.readerSide = .ok bs r) :
      ReaderDoes s .rdall r { status := .ok, rdata := 0, rbytes := bs }
  | allEos {r : ReaderSide} (hl : s.br.life = .bound) (h : readAll s.readerSide = .eos r) :
      ReaderDoes s .rdall r { status := .eos, rdata := 0, rbytes := [] }
  | stat : ReaderDoes s .rstat s.readerSide { status := .ok, rdata := onBus s.br.rstat, rbytes := [] }
  | close (hl : s.br.life = .bound) : ReaderDoes s .rclose (closeReader s.readerSide) { status := .ok, rdata := 0, rbytes := [] }
  | reclose (hl : s.br.life = .closed) : ReaderDoes s .rclose s.readerSide { status := .ok, rdata := 0, rbytes := [] }

theorem bindReader_ne_eos (r r' : ReaderSide) : bindReader r ≠ .eos r' := fill_ne_eos _ r'

/-- The inversion of a reader command: it changes the reader's side and gives one response, and these are the ways. -/
theorem reader_next {i : Instr} {s t : State} (hp : i.port = .reader) (h : exec i s = .next t) :
    ∃ r q, t = (s.setReader r).answerReader q ∧ ReaderDoes s i r q := by
  have body_case : ∀ body, readBody i = some body → badWidth i = false → stateRefused i s.br.life = (s.br.life != .bound) →
      ∃ r q, t = (s.setReader r).answerReader q ∧ ReaderDoes s i r q := by
    intro body hb hw hs
    rw [exec_read hb hw] at h
    obtain ⟨hl, v, r, h1, h2⟩ | ⟨hl, r, h1, h2⟩ | ⟨hl, h2⟩ := dataRead_next h
    · exact ⟨r, _, h2, .read hb hw hl h1⟩
    · exact ⟨r, _, h2, .readEos hb hw hl h1⟩
    · exact ⟨s.readerSide, _, h2, .wrongState hw (by simp [hs, hl])⟩
  cases i <;> simp only [Instr.port, reduceCtorEq] at hp
  case rbind =>
    simp only [exec, execRbind] at h
    split at h
    · rename_i hl
      obtain ⟨v, r, h1, h2⟩ | ⟨r, h1, h2⟩ := finishReader_next h
      · exact ⟨r, _, h2, .bind hl h1⟩
      · exact absurd h1 (bindReader_ne_eos _ r)
    · rename_i hl
      cases h
      exact ⟨s.readerSide, _, rfl, .wrongState rfl (by simp [stateRefused, hl])⟩
  case rdall =>
    obtain ⟨hl, v, r, h1, h2⟩ | ⟨hl, r, h1, h2⟩ | ⟨hl, h2⟩ := dataRead_next h
    · exact ⟨r, _, h2, .all hl h1⟩
    · exact ⟨r, _, h2, .allEos hl h1⟩
    · exact ⟨s.readerSide, _, h2, .wrongState rfl (by simp [stateRefused, hl])⟩
  case rstat => cases h; exact ⟨s.readerSide, _, rfl, .stat⟩
  case rclose =>
    simp only [exec, execRclose] at h
    split at h <;> cases h <;> rename_i hl
    · exact ⟨s.readerSide, _, rfl, .wrongState rfl (by simp [stateRefused, hl])⟩
    · exact ⟨_, _, rfl, .close hl⟩
    · exact ⟨s.readerSide, _, rfl, .reclose hl⟩
  case rdbits k =>
    cases hw : badWidth (.rdbits k)
    · exact body_case _ rfl hw rfl
    · have hk : ¬ widthLegal k := fun hc => by rw [(badWidth_rdbits k).mpr hc] at hw; cases hw
      simp only [exec, execRdbits] at h
      rw [if_neg hk] at h
      cases h
      exact ⟨s.readerSide, _, rfl, .invalid hw⟩
  all_goals exact body_case _ rfl rfl rfl

/-- All that a writer command can do. -/
inductive WriterDoes (s : State) : Instr → WriterSide → WriterResponse → Prop where
  | invalid {i : Instr} (hw : badWidth i = true) : WriterDoes s i s.writerSide { status := .invalidArg, rdata := 0 }
  | wrongState {i : Instr} (hw : badWidth i = false) (hs : stateRefused i s.bw.life = true) :
      WriterDoes s i s.writerSide { status := .state, rdata := 0 }
  | bind (hl : s.bw.life = .unbound) : WriterDoes s .wbind (bindWriter s.writerSide) { status := .ok, rdata := 0 }
  | write {i : Instr} {body : Data → WriterSide → Except Fault WriterSide} {w : WriterSide} (hb : writeBody i = some body)
      (hw : badWidth i = false) (hl : s.bw.life = .bound) (h : body s.bwWdata s.writerSide = .ok w) :
      WriterDoes s i w { status := .ok, rdata := 0 }
  | flush {w : WriterSide} (hl : s.bw.life = .bound) (h : flushBody s.writerSide = .ok w) :
      WriterDoes s .flush w { status := .ok, rdata := 0 }
  | stat : WriterDoes s .wstat s.writerSide { status := .ok, rdata := onBus s.bw.wstat }
  | close {w : WriterSide} (hl : s.bw.life = .bound) (h : flushBody s.writerSide = .ok w) :
      WriterDoes s .wclose { bw := { w.bw with life := .closed }, snk := w.snk.close } { status := .ok, rdata := 0 }
  | reclose (hl : s.bw.life = .closed) : WriterDoes s .wclose s.writerSide { status := .ok, rdata := 0 }

theorem closeWriter_ok {w w' : WriterSide} (h : closeWriter w = .ok w') :
    ∃ w1, flushBody w = .ok w1 ∧ w' = { bw := { w1.bw with life := .closed }, snk := w1.snk.close } := by
  unfold closeWriter at h
  cases hf : flushBody w with
  | ok w1 => rw [hf] at h; cases h; exact ⟨w1, rfl, rfl⟩
  | error f => rw [hf] at h; cases h

/-- The inversion of a writer command: it changes the writer's side and gives one response, and these are the ways. -/
theorem writer_next {i : Instr} {s t : State} (hp : i.port = .writer) (h : exec i s = .next t) :
    ∃ w q, t = (s.setWriter w).answerWriter q ∧ WriterDoes s i w q := by
  have body_case : ∀ body, writeBody i = some body → badWidth i = false → stateRefused i s.bw.life = (s.bw.life != .bound) →
      ∃ w q, t = (s.setWriter w).answerWriter q ∧ WriterDoes s i w q := by
    intro body hb hw hs
    rw [exec_write hb hw] at h
    obtain ⟨hl, w, h1, h2⟩ | ⟨hl, h2⟩ := dataWrite_next h
    · exact ⟨w, _, h2, .write hb hw hl h1⟩
    · exact ⟨s.writerSide, _, h2, .wrongState hw (by simp [hs, hl])⟩
  cases i <;> simp only [Instr.port, reduceCtorEq] at hp
  case wbind =>
    simp only [exec, execWbind] at h
    split at h <;> cases h <;> rename_i hl
    · exact ⟨_, _, rfl, .bind hl⟩
    · exact ⟨s.writerSide, _, rfl, .wrongState rfl (by simp [stateRefused, hl])⟩
  case flush =>
    obtain ⟨hl, w, h1, h2⟩ | ⟨hl, h2⟩ := dataWrite_next h
    · exact ⟨w, _, h2, .flush hl h1⟩
    · exact ⟨s.writerSide, _, h2, .wrongState rfl (by simp [stateRefused, hl])⟩
  case wstat => cases h; exact ⟨s.writerSide, _, rfl, .stat⟩
  case wclose =>
    simp only [exec, execWclose] at h
    split at h <;> rename_i hl
    · cases h; exact ⟨s.writerSide, _, rfl, .wrongState rfl (by simp [stateRefused, hl])⟩
    · obtain ⟨w, h1, h2⟩ := finishWriter_next h
      obtain ⟨w1, h3, h4⟩ := closeWriter_ok h1
      exact ⟨w, _, h2, by rw [h4]; exact .close hl h3⟩
    · cases h; exact ⟨s.writerSide, _, rfl, .reclose hl⟩
  case wrbits k =>
    cases hw : badWidth (.wrbits k)
    · exact body_case _ rfl hw rfl
    · have hk : ¬ widthLegal k := fun hc => by rw [(badWidth_wrbits k).mpr hc] at hw; cases hw
      simp only [exec, execWrbits] at h
      rw [if_neg hk] at h
      cases h
      exact ⟨s.writerSide, _, rfl, .invalid hw⟩
  all_goals exact body_case _ rfl rfl rfl

end Sys2Proof.Machine
end

