-- ==== Sys2Proof/Laws/Decode.lean ====
section
/-! SUPPORT. The fields of a command word (R52). -/

namespace Sys2Proof

theorem cmdWord_getLsbD (c o : BitVec 4) (a : BitVec 8) (k : Nat) :
    (cmdWord c o a).getLsbD k =
      if k < 8 then a.getLsbD k else if k - 8 < 4 then o.getLsbD (k - 8) else c.getLsbD (k - 8 - 4) := by
  show BitVec.getLsbD ((c ++ o) ++ a) k = _
  rw [BitVec.getLsbD_append, BitVec.getLsbD_append]

@[simp] theorem cls_cmdWord (c o : BitVec 4) (a : BitVec 8) : (cmdWord c o a).cls = c := by
  apply BitVec.eq_of_getLsbD_eq
  intro k hk
  rw [Cmd.cls, BitVec.getLsbD_extractLsb', cmdWord_getLsbD, if_neg (by omega), if_neg (by omega)]
  have : 12 + k - 8 - 4 = k := by omega
  simp [hk, this]

@[simp] theorem op_cmdWord (c o : BitVec 4) (a : BitVec 8) : (cmdWord c o a).op = o := by
  apply BitVec.eq_of_getLsbD_eq
  intro k hk
  rw [Cmd.op, BitVec.getLsbD_extractLsb', cmdWord_getLsbD, if_neg (by omega), if_pos (by omega)]
  have : 8 + k - 8 = k := by omega
  simp [hk, this]

@[simp] theorem arg_cmdWord (c o : BitVec 4) (a : BitVec 8) : (cmdWord c o a).arg = a := by
  apply BitVec.eq_of_getLsbD_eq
  intro k hk
  rw [Cmd.arg, BitVec.getLsbD_extractLsb', cmdWord_getLsbD, if_pos (by omega)]
  simp [hk]

/-- A word is made of its three fields. -/
theorem cmdWord_fields (w : Cmd) : cmdWord w.cls w.op w.arg = w := by
  apply BitVec.eq_of_getLsbD_eq
  intro k hk
  rw [cmdWord_getLsbD]
  by_cases h : k < 8
  · simp [h, Cmd.arg]
  · by_cases h' : k - 8 < 4
    · have : 8 + (k - 8) = k := by omega
      simp [h, h', Cmd.op, this]
    · have e : 12 + (k - 8 - 4) = k := by omega
      have h4 : k - 8 - 4 < 4 := by omega
      simp [h, h', Cmd.cls, e, h4]

end Sys2Proof
end

