-- ==== Sys2Proof/Laws/PerInstr.lean ====
section
/-! SUPPORT. Statements about every command as syntax, one lemma per constructor: the class of a command's word is its unit's
(R52, R57). -/

namespace Sys2Proof.Laws.WordClass

/-- The class field of the word of `i` is 1 for a reader command and 2 for a writer command. -/
def Statement (i : Instr) : Prop :=
  (encode i).cls = match i.port with
    | .reader => 1
    | .writer => 2

theorem rbind : Statement .rbind := cls_cmdWord _ _ _
theorem rdbit : Statement .rdbit := cls_cmdWord _ _ _
theorem rdbyte : Statement .rdbyte := cls_cmdWord _ _ _
theorem rdshort : Statement .rdshort := cls_cmdWord _ _ _
theorem rdint : Statement .rdint := cls_cmdWord _ _ _
theorem rdlong : Statement .rdlong := cls_cmdWord _ _ _
theorem rdbits (r : Nat) : Statement (.rdbits r) := cls_cmdWord _ _ _
theorem rdall : Statement .rdall := cls_cmdWord _ _ _
theorem rstat : Statement .rstat := cls_cmdWord _ _ _
theorem rclose : Statement .rclose := cls_cmdWord _ _ _
theorem wbind : Statement .wbind := cls_cmdWord _ _ _
theorem wrbit : Statement .wrbit := cls_cmdWord _ _ _
theorem wrbyte : Statement .wrbyte := cls_cmdWord _ _ _
theorem wrshort : Statement .wrshort := cls_cmdWord _ _ _
theorem wrint : Statement .wrint := cls_cmdWord _ _ _
theorem wrlong : Statement .wrlong := cls_cmdWord _ _ _
theorem wrbits (r : Nat) : Statement (.wrbits r) := cls_cmdWord _ _ _
theorem flush : Statement .flush := cls_cmdWord _ _ _
theorem wstat : Statement .wstat := cls_cmdWord _ _ _
theorem wclose : Statement .wclose := cls_cmdWord _ _ _

end Sys2Proof.Laws.WordClass
end

