-- ==== Sys2Proof/Tests/Slice0.lean ====
section
/-! SUPPORT. Small tests, each a named theorem. Expected values are from spec/95_test_vectors.md (the vector is named) or written out
from the encoding of spec/30_encoding.md. The witnesses at the end show that the hypotheses of every obligation can be met. -/

namespace Sys2Proof.Tests

open Sys2Proof.Machine

/-! ### Well-formedness -/

theorem test_wellformed_refuses_wide_rdbits : (Instr.rdbits 256).wellFormed = false := by decide
theorem test_wellformed_refuses_wide_wrbits : (Instr.wrbits 256).wellFormed = false := by decide
theorem test_wellformed_keeps_illegal_widths :
    (Instr.rdbits 0).WellFormed ∧ (Instr.rdbits 255).WellFormed ∧ (Instr.wrbits 33).WellFormed := by decide

/-! ### Decoding: `class`, `op` and `arg` written out bit by bit from R52 and R57 -/

theorem test_decode_reader_fixed :
    decode 0b0001000000000000 = .ok .rbind ∧ decode 0b0001000100000000 = .ok .rdbit ∧
    decode 0b0001001000000000 = .ok .rdbyte ∧ decode 0b0001001100000000 = .ok .rdshort ∧
    decode 0b0001010000000000 = .ok .rdint ∧ decode 0b0001010100000000 = .ok .rdlong ∧
    decode 0b0001011100000000 = .ok .rdall ∧ decode 0b0001100000000000 = .ok .rstat ∧
    decode 0b0001100100000000 = .ok .rclose := by decide

theorem test_decode_writer_fixed :
    decode 0b0010000000000000 = .ok .wbind ∧ decode 0b0010000100000000 = .ok .wrbit ∧
    decode 0b0010001000000000 = .ok .wrbyte ∧ decode 0b0010001100000000 = .ok .wrshort ∧
    decode 0b0010010000000000 = .ok .wrint ∧ decode 0b0010010100000000 = .ok .wrlong ∧
    decode 0b0010011100000000 = .ok .flush ∧ decode 0b0010100000000000 = .ok .wstat ∧
    decode 0b0010100100000000 = .ok .wclose := by decide

theorem test_decode_widths :
    decode 0b0001011000000001 = .ok (.rdbits 1) ∧ decode 0b0001011010000000 = .ok (.rdbits 128) ∧
    decode 0b0001011000001100 = .ok Instr.rdcode ∧ decode 0b0010011000100000 = .ok (.wrbits 32) ∧
    decode 0b0010011011111111 = .ok (.wrbits 255) ∧ decode 0b0010011000001100 = .ok Instr.wrcode := by decide

/-- V-RLIFE-1, and the writer's like it. -/
theorem test_decode_illegal :
    decode 0x0000 = .error .reservedClass ∧ decode 0xFFFF = .error .reservedClass ∧ decode 0x3000 = .error .reservedClass ∧
    decode 0x1A00 = .error .reservedOp ∧ decode 0x1F00 = .error .reservedOp ∧ decode 0x2A00 = .error .reservedOp ∧
    decode 0x1101 = .error .nonzeroArg ∧ decode 0x2701 = .error .nonzeroArg ∧ decode 0x2910 = .error .nonzeroArg := by decide

theorem test_decode_table_word :
    decodeTableWord 16 0x1100 = some .rdbit ∧ decodeTableWord 16 0x2620 = some (.wrbits 32) ∧ decodeTableWord 16 0x3000 = none ∧
    decodeTableWord 16 0x11100 = none := by decide

theorem test_encode_table : encode .rbind = 0x1000 ∧ encode (.rdbits 12) = 0x160C ∧ encode .wclose = 0x2900 := by decide

/-! ### Helpers: a unit in a given state, and what a step leaves of it -/

/-- A bound reader over a source, `buf n eof pos` as the vectors write them. -/
def readerAt (buf : Byte) (n : Count) (eof : Bool) (pos : Nat) (bytes : List Byte) : State :=
  { State.reset with
    br := { buf := buf, n := n, eof := eof, life := .bound }
    src := { bytes := bytes, pos := pos, released := false } }

/-- A reader not yet bound, over a fresh source. -/
def readerOver (bytes : List Byte) : State :=
  { State.reset with src := { bytes := bytes, pos := 0, released := false } }

/-- A closed reader. -/
def readerClosed : State :=
  { State.reset with
    br := { buf := 0x55, n := 0, eof := true, life := .closed }
    src := { bytes := [0x55], pos := 1, released := true } }

/-- A bound writer, with an operand on its lines. -/
def writerAt (buf : Byte) (n : Count) (bytes : List Byte) (wdata : Data) : State :=
  { State.reset with
    bw := { buf := buf, n := n, life := .bound }
    snk := { bytes := bytes, closed := false }
    bwWdata := wdata }

/-- A closed writer. -/
def writerClosed : State :=
  { State.reset with bw := { buf := 0x00, n := 0, life := .closed }, snk := { bytes := [], closed := true } }

/-- One input waiting. -/
def awaiting (s : State) (e : Input) : State := { s with inputs := [e] }

/-- The reader's side and its newest response. -/
structure ReaderView where
  buf  : Byte
  n    : Nat
  eof  : Bool
  life : Life
  pos  : Nat
  rsp  : Option ReaderResponse
deriving DecidableEq, Repr

/-- The writer's side and its newest response. -/
structure WriterView where
  buf    : Byte
  n      : Nat
  life   : Life
  bytes  : List Byte
  closed : Bool
  rsp    : Option WriterResponse
deriving DecidableEq, Repr

def readerAfter (o : Outcome) : Option ReaderView :=
  match o with
  | .next t => some ⟨t.br.buf, t.br.n.toNat, t.br.eof, t.br.life, t.src.pos, t.brRsp.getLast?⟩
  | .fault _ => none
  | .refused _ => none

def writerAfter (o : Outcome) : Option WriterView :=
  match o with
  | .next t => some ⟨t.bw.buf, t.bw.n.toNat, t.bw.life, t.snk.bytes, t.snk.closed, t.bwRsp.getLast?⟩
  | .fault _ => none
  | .refused _ => none

def faultOf (o : Outcome) : Option Fault :=
  match o with
  | .next _ => none
  | .fault f => some f
  | .refused _ => none

def refusalOf (o : Outcome) : Option Refusal :=
  match o with
  | .next _ => none
  | .fault _ => none
  | .refused r => some r

def rOk (d : Data) : Option ReaderResponse := some { status := .ok, rdata := d, rbytes := [] }
def rErr (st : Status) : Option ReaderResponse := some { status := st, rdata := 0, rbytes := [] }
def wOk (d : Data) : Option WriterResponse := some { status := .ok, rdata := d }
def wErr (st : Status) : Option WriterResponse := some { status := st, rdata := 0 }

/-! ### Reader commands -/

/-- V-RBIND-1 and V-EMPTY-1. -/
theorem test_rbind :
    readerAfter (exec .rbind (readerOver [0x06, 0x11])) = some ⟨0x06, 8, false, .bound, 1, rOk 0⟩ ∧
    readerAfter (exec .rbind (readerOver [])) = some ⟨0x00, 0, true, .bound, 0, rOk 0⟩ := by decide

/-- V-RDBIT-1: the last bit, and the end. -/
theorem test_rdbit_last :
    readerAfter (exec .rdbit (readerAt 0xB1 1 false 1 [0xB1])) = some ⟨0xB1, 0, true, .bound, 1, rOk 1⟩ ∧
    readerAfter (exec .rdbit (readerAt 0xB1 0 true 1 [0xB1])) = some ⟨0xB1, 0, true, .bound, 1, rErr .eos⟩ := by decide

/-- The example of R72: the refill is in the same command. -/
theorem test_rdbit_refill :
    readerAfter (exec .rdbit (readerAt 0xA5 1 false 1 [0xA5, 0x3C])) = some ⟨0x3C, 8, false, .bound, 2, rOk 1⟩ := by decide

/-- V-SPLICE-1: the splice, and the failed splice that keeps the resident bits. -/
theorem test_rdbyte_splice :
    readerAfter (exec .rdbyte (readerAt 0xA5 3 false 1 [0xA5, 0x3C])) = some ⟨0x3C, 3, false, .bound, 2, rOk 0xA7⟩ ∧
    readerAfter (exec .rdbyte (readerAt 0x3C 3 false 2 [0xA5, 0x3C])) = some ⟨0x3C, 3, true, .bound, 2, rErr .eos⟩ := by decide

/-- The aligned example of R73. -/
theorem test_rdbyte_aligned :
    readerAfter (exec .rdbyte (readerAt 0x06 8 false 1 [0x06, 0x11])) = some ⟨0x11, 8, false, .bound, 2, rOk 0x06⟩ := by decide

/-- V-RDSHORT-1 and V-RDSHORT-2. -/
theorem test_rdshort :
    readerAfter (exec .rdshort (readerAt 0x80 8 false 3 [0xFF, 0xFF, 0x80, 0x00])) =
      some ⟨0x00, 0, true, .bound, 4, rOk 0x8000⟩ ∧
    readerAfter (exec .rdshort (readerAt 0x12 8 false 1 [0x12])) = some ⟨0x12, 0, true, .bound, 1, rErr .eos⟩ := by decide

/-- V-BW-2 line 3, and V-RDINT-2. -/
theorem test_rdint :
    readerAfter (exec .rdint (readerAt 0xC0 7 false 1 [0xC0, 0x00, 0x00, 0x00, 0xE0, 0x00, 0x00, 0x00, 0x40])) =
      some ⟨0xE0, 7, false, .bound, 5, rOk 0x80000001⟩ ∧
    readerAfter (exec .rdint (readerAt 0xFF 7 false 1 [0xFF, 0x02, 0x03])) =
      some ⟨0x03, 7, true, .bound, 3, rErr .eos⟩ := by decide

/-- V-RDLONG-1. -/
theorem test_rdlong :
    readerAfter (exec .rdlong (readerAt 0x80 8 false 1 [0x80, 0x00, 0x00, 0x00, 0x00, 0x00, 0x00, 0x01, 0x55])) =
      some ⟨0x55, 8, false, .bound, 9, rOk 0x8000000000000001⟩ := by decide

/-- V-RDBITS-1 and V-RDBITS-2: across byte boundaries, and the failure that loses every remaining bit. -/
theorem test_rdbits :
    readerAfter (exec (.rdbits 31) (readerAt 0xFF 8 false 1 [0xFF, 0xFF, 0xFF, 0xFF, 0x80])) =
      some ⟨0xFF, 1, false, .bound, 4, rOk 0x7FFFFFFF⟩ ∧
    readerAfter (exec (.rdbits 12) (readerAt 0xAB 3 false 1 [0xAB, 0xC0])) =
      some ⟨0xC0, 0, true, .bound, 2, rErr .eos⟩ := by decide

/-- V-RDBITS-3, and V-SPLICE-2 line 6: width 8 takes the byte path. -/
theorem test_rdbits_errors :
    readerAfter (exec (.rdbits 33) State.reset) = some ⟨0x00, 0, false, .unbound, 0, rErr .invalidArg⟩ ∧
    readerAfter (exec (.rdbits 32) State.reset) = some ⟨0x00, 0, false, .unbound, 0, rErr .state⟩ ∧
    readerAfter (exec (.rdbits 8) (readerAt 0xA5 3 true 1 [0xA5])) = some ⟨0xA5, 3, true, .bound, 1, rErr .eos⟩ := by decide

/-- V-RDALL-1 and V-RDALL-2. -/
theorem test_rdall :
    readerAfter (exec .rdall (readerAt 0x61 8 false 1 [0x61, 0x61, 0x61])) =
      some ⟨0x61, 0, true, .bound, 3, some { status := .ok, rdata := 0, rbytes := [0x61, 0x61, 0x61] }⟩ ∧
    readerAfter (exec .rdall (readerAt 0xA5 5 false 1 [0xA5, 0x3C, 0x7E])) =
      some ⟨0x7E, 5, true, .bound, 3, rErr .eos⟩ := by decide

/-- The values of R80. -/
theorem test_rstat :
    State.reset.br.rstat = 0x20 ∧ (readerAt 0x06 8 false 1 [0x06]).br.rstat = 0x48 ∧
    (readerAt 0x3C 4 true 1 [0x3C]).br.rstat = 0x54 ∧ (readerAt 0x00 0 true 0 []).br.rstat = 0x70 ∧
    readerAfter (exec .rstat readerClosed) = some ⟨0x55, 0, true, .closed, 1, rOk 0xB0⟩ ∧ remptyOf 0x70 = true := by decide

/-- V-RLIFE-1: close, close again, and the states that refuse. -/
theorem test_rclose :
    readerAfter (exec .rclose (readerAt 0x55 8 false 1 [0x55])) = some ⟨0x55, 0, true, .closed, 1, rOk 0⟩ ∧
    readerAfter (exec .rclose readerClosed) = some ⟨0x55, 0, true, .closed, 1, rOk 0⟩ ∧
    readerAfter (exec .rclose State.reset) = some ⟨0x00, 0, false, .unbound, 0, rErr .state⟩ ∧
    readerAfter (exec .rdbyte readerClosed) = some ⟨0x55, 0, true, .closed, 1, rErr .state⟩ := by decide

/-! ### Writer commands -/

theorem test_wbind :
    writerAfter (exec .wbind State.reset) = some ⟨0x00, 0, .bound, [], false, wOk 0⟩ ∧
    writerAfter (exec .wbind writerClosed) = some ⟨0x00, 0, .closed, [], true, wErr .state⟩ := by decide

/-- V-WRBIT-1 line 9, and V-WTRUNC-1: bit 0 alone counts. -/
theorem test_wrbit :
    writerAfter (exec .wrbit (writerAt 0x52 7 [] 1)) = some ⟨0x00, 0, .bound, [0xA5], false, wOk 0⟩ ∧
    writerAfter (exec .wrbit (writerAt 0x01 4 [0x06] 0xFFFFFFFFFFFFFFFE)) =
      some ⟨0x02, 5, .bound, [0x06], false, wOk 0⟩ := by decide

/-- V-WRBYTE-1, and V-WTRUNC-1. -/
theorem test_wrbyte :
    writerAfter (exec .wrbyte (writerAt 0x05 3 [] 0x3C)) = some ⟨0x04, 3, .bound, [0xA7], false, wOk 0⟩ ∧
    writerAfter (exec .wrbyte (writerAt 0x02 5 [0x06] 0x1FF)) = some ⟨0x1F, 5, .bound, [0x06, 0x17], false, wOk 0⟩ := by decide

/-- P3 line 4. -/
theorem test_wrshort :
    writerAfter (exec .wrshort (writerAt 0x01 1 [0xD2] 0xFFFE)) =
      some ⟨0x00, 1, .bound, [0xD2, 0xFF, 0xFF], false, wOk 0⟩ := by decide

/-- P3 lines 9 and 11. -/
theorem test_wrint :
    writerAfter (exec .wrint (writerAt 0x00 0 [] 0xDEADBEEF)) =
      some ⟨0x00, 0, .bound, [0xDE, 0xAD, 0xBE, 0xEF], false, wOk 0⟩ ∧
    writerAfter (exec (.wrbits 32) (writerAt 0x1F 5 [] 0x01020304)) =
      some ⟨0x04, 5, .bound, [0xF8, 0x08, 0x10, 0x18], false, wOk 0⟩ := by decide

/-- P3 line 12. -/
theorem test_wrlong :
    writerAfter (exec .wrlong (writerAt 0x04 5 [] 0x0123456789ABCDEF)) =
      some ⟨0x0F, 5, .bound, [0x20, 0x09, 0x1A, 0x2B, 0x3C, 0x4D, 0x5E, 0x6F], false, wOk 0⟩ := by decide

/-- V-WTRUNC-1 and P1 line 4. -/
theorem test_wrbits :
    writerAfter (exec (.wrbits 12) (writerAt 0x00 0 [] 0xF061)) = some ⟨0x01, 4, .bound, [0x06], false, wOk 0⟩ ∧
    writerAfter (exec Instr.wrcode (writerAt 0x01 4 [0x06] 0x101)) = some ⟨0x00, 0, .bound, [0x06, 0x11, 0x01], false, wOk 0⟩ ∧
    writerAfter (exec (.wrbits 0) State.reset) = some ⟨0x00, 0, .unbound, [], false, wErr .invalidArg⟩ := by decide

/-- V-WRBIT-1: the pad is below the bits; a second flush sends nothing. -/
theorem test_flush :
    writerAfter (exec .flush (writerAt 0x03 2 [0xA5] 0)) = some ⟨0x00, 0, .bound, [0xA5, 0xC0], false, wOk 0⟩ ∧
    writerAfter (exec .flush (writerAt 0x00 0 [0xA5, 0xC0] 0)) = some ⟨0x00, 0, .bound, [0xA5, 0xC0], false, wOk 0⟩ := by decide

/-- P1 lines 6 and 8. -/
theorem test_wstat :
    writerAfter (exec .wstat (writerAt 0x00 4 [0x06] 0)) = some ⟨0x00, 4, .bound, [0x06], false, wOk 0x44⟩ ∧
    writerAfter (exec .wstat writerClosed) = some ⟨0x00, 0, .closed, [], true, wOk 0x80⟩ := by decide

/-- P1 lines 7, 9 and 10. -/
theorem test_wclose :
    writerAfter (exec .wclose (writerAt 0x00 4 [0x10] 0)) = some ⟨0x00, 0, .closed, [0x10, 0x00], true, wOk 0⟩ ∧
    writerAfter (exec .wclose writerClosed) = some ⟨0x00, 0, .closed, [], true, wOk 0⟩ ∧
    writerAfter (exec .wrbit writerClosed) = some ⟨0x00, 0, .closed, [], true, wErr .state⟩ := by decide

/-! ### The step -/

/-- A word presented after reset is the first command that runs. -/
theorem test_step_runs_the_presented_word :
    step (State.reset.withFetchWord 16 0x1800) = exec .rstat State.reset ∧
    step (State.reset.withFetchWord 16 0x2000) = exec .wbind State.reset := by
  exact ⟨rfl, rfl⟩

/-- V-RLIFE-1: illegal words, a writer word on the reader's channel among them. -/
theorem test_step_illegal :
    readerAfter (step (awaiting (readerOver [0x55]) (.readerCmd 0x2100 1))) = some ⟨0x00, 0, false, .unbound, 0, rErr .illegal⟩ ∧
    readerAfter (step (awaiting (readerOver [0x55]) (.readerCmd 0x1101 0))) = some ⟨0x00, 0, false, .unbound, 0, rErr .illegal⟩ ∧
    writerAfter (step (awaiting State.reset (.writerCmd 0x1000 0))) = some ⟨0x00, 0, .unbound, [], false, wErr .illegal⟩ := by decide

/-- V-RLIFE-1, last line: a reset leaves the source. R151. -/
theorem test_step_reset :
    readerAfter (step (awaiting readerClosed .brRst)) = some ⟨0x00, 0, false, .unbound, 1, none⟩ ∧
    writerAfter (step (awaiting writerClosed .bwRst)) = some ⟨0x00, 0, .unbound, [], true, none⟩ := by decide

/-- The two broken preconditions and the two refused presentings (log entries 6, 7 and 8). -/
theorem test_stops :
    faultOf (exec .rbind { State.reset with src := { bytes := [0x55], pos := 1, released := true } }) = some .sourceReleased ∧
    faultOf (exec .wrbyte { writerAt 0x00 0 [] 0 with snk := { bytes := [], closed := true } }) = some .sinkClosed ∧
    refusalOf (step (awaiting (readerAt 0x55 8 false 1 [0x55]) (.presentSource []))) = some .sourceInUse ∧
    refusalOf (step (awaiting (writerAt 0x00 0 [] 0) .presentSink)) = some .sinkInUse := by decide

/-! ### Witnesses: the hypotheses of the obligations can be met

One theorem an obligation with hypotheses, under its name; each clause at a boundary value of its range. -/

theorem witness_DecodeOfEncodeIsIdentity : (Instr.rdbits 255).WellFormed ∧ (Instr.wrbits 0).WellFormed := by decide

theorem witness_EncodeOfDecodeIsIdentity : decode 0x16FF = .ok (.rdbits 255) ∧ decode 0x2600 = .ok (.wrbits 0) := by decide

theorem witness_StepRunsTheDecodedCommand :
    (decode 0x1900 = .ok .rclose ∧ Instr.rclose.port = .reader ∧
      (awaiting State.reset (.readerCmd 0x1900 7)).inputs = [.readerCmd 0x1900 7]) ∧
    (decode 0x2600 = .ok (.wrbits 0) ∧ (Instr.wrbits 0).port = .writer ∧
      (awaiting State.reset (.writerCmd 0x2600 7)).inputs = [.writerCmd 0x2600 7]) := by decide

theorem witness_IllegalWordIsAnsweredAndChangesNothing :
    ((∀ i, decode 0x1A00 = .ok i → i.port ≠ .reader) ∧
      (awaiting State.reset (.readerCmd 0x1A00 0)).inputs = [.readerCmd 0x1A00 0]) ∧
    ((∀ i, decode 0x1000 = .ok i → i.port ≠ .writer) ∧
      (awaiting State.reset (.writerCmd 0x1000 0)).inputs = [.writerCmd 0x1000 0]) := by
  refine ⟨⟨fun i h => ?_, rfl⟩, ⟨fun i h => ?_, rfl⟩⟩
  · rw [show decode 0x1A00 = .error .reservedOp from rfl] at h; cases h
  · rw [show decode 0x1000 = .ok .rbind from rfl] at h; cases h; decide

theorem witness_ResetGivesTheResetValues :
    (awaiting readerClosed .brRst).inputs = .brRst :: [] ∧ (awaiting writerClosed .bwRst).inputs = .bwRst :: [] := by decide

theorem witness_StepHoldsWhenNothingWaits : State.reset.inputs = [] := by decide

theorem witness_PresentingTheEnvironment :
    (awaiting State.reset (.presentSource [0x06])).br.life = .unbound ∧ (awaiting readerClosed (.presentSource [])).br.life ≠ .unbound ∧
    (awaiting State.reset .presentSink).bw.life = .unbound ∧ (awaiting writerClosed .presentSink).bw.life ≠ .unbound := by decide

/-- Each of the four statuses, on a run that a next state ends. -/
theorem witness_StatusFollowsThePriority :
    (∃ t, step (awaiting State.reset (Input.command .writer 0x1600 0)) = .next t) ∧
    (∃ t, step (awaiting State.reset (Input.command .reader 0x1600 0)) = .next t ∧ badWidth (.rdbits 0) = true) ∧
    (∃ t, step (awaiting State.reset (Input.command .reader 0x1100 0)) = .next t ∧ stateRefused .rdbit .unbound = true) ∧
    (∃ t, step (awaiting (readerAt 0x00 0 true 0 []) (Input.command .reader 0x1100 0)) = .next t ∧
      stateRefused .rdbit .bound = false) := by
  exact ⟨⟨_, rfl⟩, ⟨_, rfl, rfl⟩, ⟨_, rfl, rfl⟩, ⟨_, rfl, rfl⟩⟩

/-- A result of full width, a failure, a status read and a byte sequence; on the writer a write and a status read. -/
theorem witness_ResponsesHaveTheRuledForm :
    (∃ t, exec (.rdbits 1) (readerAt 0x01 1 false 1 [0x01]) = .next t) ∧ (∃ t, exec .rdbit State.reset = .next t) ∧
    (∃ t, exec .rstat State.reset = .next t) ∧ (∃ t, exec .rdall (readerAt 0x61 8 false 1 [0x61]) = .next t) ∧
    (∃ t, exec .wrbit (writerAt 0x00 7 [] 1) = .next t) ∧ (∃ t, exec .wstat State.reset = .next t) := by
  exact ⟨⟨_, rfl⟩, ⟨_, rfl⟩, ⟨_, rfl⟩, ⟨_, rfl⟩, ⟨_, rfl⟩, ⟨_, rfl⟩⟩

theorem witness_ReaderCommandsTouchOnlyTheReader :
    (∃ t, Instr.rdlong.port = .reader ∧ exec .rdlong (readerAt 0x80 8 false 1 [0x80, 0, 0, 0, 0, 0, 0, 1, 0x55]) = .next t) ∧
    (∃ t, Instr.rclose.port = .reader ∧ exec .rclose (readerAt 0x55 8 false 1 [0x55]) = .next t) ∧
    (∃ t, Instr.rstat.port = .reader ∧ exec .rstat readerClosed = .next t) := by
  exact ⟨⟨_, rfl, rfl⟩, ⟨_, rfl, rfl⟩, ⟨_, rfl, rfl⟩⟩

theorem witness_WriterCommandsTouchOnlyTheWriter :
    (∃ t, Instr.wrlong.port = .writer ∧ exec .wrlong (writerAt 0x04 5 [] 1) = .next t) ∧
    (∃ t, Instr.wbind.port = .writer ∧ exec .wbind State.reset = .next t) ∧
    (∃ t, Instr.wstat.port = .writer ∧ exec .wstat writerClosed = .next t) := by
  exact ⟨⟨_, rfl, rfl⟩, ⟨_, rfl, rfl⟩, ⟨_, rfl, rfl⟩⟩

/-- The least width of each kind that is out of range: 0 and 33. -/
theorem witness_WidthOutsideOneTo32IsInvalid : ((0 : Nat) = 0 ∨ 33 ≤ 0) ∧ ((33 : Nat) = 0 ∨ 33 ≤ 33) := by decide

theorem witness_WrongLifecycleIsAnsweredState :
    (badWidth (.rdbits 32) = false ∧ stateRefused (.rdbits 32) (lifeOf (Instr.rdbits 32).port State.reset) = true) ∧
    (badWidth .wrbit = false ∧ stateRefused .wrbit (lifeOf Instr.wrbit.port writerClosed) = true) := by decide

/-- Each move of each unit. -/
theorem witness_LifecycleMovesOnlyAsRuled :
    (∃ t, step (awaiting readerClosed .brRst) = .next t ∧ t.br.life ≠ readerClosed.br.life) ∧
    (∃ t, step (awaiting (readerOver []) (.readerCmd 0x1000 0)) = .next t ∧ t.br.life ≠ .unbound) ∧
    (∃ t, step (awaiting (readerAt 0x55 8 false 1 [0x55]) (.readerCmd 0x1900 0)) = .next t ∧ t.br.life ≠ .bound) ∧
    (∃ t, step (awaiting writerClosed .bwRst) = .next t ∧ t.bw.life ≠ writerClosed.bw.life) ∧
    (∃ t, step (awaiting State.reset (.writerCmd 0x2000 0)) = .next t ∧ t.bw.life ≠ .unbound) ∧
    (∃ t, step (awaiting (writerAt 0x00 4 [] 0) (.writerCmd 0x2900 0)) = .next t ∧ t.bw.life ≠ .bound) := by
  exact ⟨⟨_, rfl, by decide⟩, ⟨_, rfl, by decide⟩, ⟨_, rfl, by decide⟩, ⟨_, rfl, by decide⟩, ⟨_, rfl, by decide⟩,
    ⟨_, rfl, by decide⟩⟩

theorem witness_CommandsStopOnlyOnABrokenPrecondition :
    exec .rbind { State.reset with src := { bytes := [0x55], pos := 1, released := true } } = .fault .sourceReleased ∧
    exec .wrbyte { writerAt 0x00 0 [] 0 with snk := { bytes := [], closed := true } } = .fault .sinkClosed := by
  exact ⟨rfl, rfl⟩

theorem witness_BrokenPreconditionStopsTheAccess :
    (readerOver []).br.life = .unbound ∧
    (({ readerOver [] with src := { bytes := [], pos := 0, released := true } } : State).br.life = .unbound ∧
      ({ readerOver [] with src := { bytes := [], pos := 0, released := true } } : State).src.released = true) ∧
    (({ writerAt 0x00 7 [] 0 with snk := { bytes := [], closed := true } } : State).bw.life = .bound ∧
      ({ writerAt 0x00 7 [] 0 with snk := { bytes := [], closed := true } } : State).snk.closed = true ∧
      ({ writerAt 0x00 7 [] 0 with snk := { bytes := [], closed := true } } : State).bw.n = 7) ∧
    (({ writerAt 0x00 1 [] 0 with snk := { bytes := [], closed := true } } : State).bw.life = .bound ∧
      ({ writerAt 0x00 1 [] 0 with snk := { bytes := [], closed := true } } : State).bw.n ≠ 0) := by decide

theorem witness_EveryCommandAnswers :
    MachineInv (readerAt 0x55 8 false 1 [0x55]) ∧ (readerAt 0x55 8 false 1 [0x55]).br.life ≠ .unbound ∧
    SinkClosedExactly (readerAt 0x55 8 false 1 [0x55]).writerSide ∧
    MachineInv writerClosed ∧ writerClosed.src.released = false ∧ SinkClosedExactly writerClosed.writerSide := by
  refine ⟨?_, ?_, ?_, ?_, ?_, ?_⟩ <;> decide

theorem witness_ReaderCommandsKeepTheReaderInvariants :
    ReaderInv (readerAt 0x3C 3 false 2 [0xA5, 0x3C]).readerSide ∧
    ∃ t, exec .rdbyte (readerAt 0x3C 3 false 2 [0xA5, 0x3C]) = .next t := by
  exact ⟨by decide, ⟨_, rfl⟩⟩

theorem witness_WriterCommandsKeepTheWriterInvariants :
    WriterInv (writerAt 0x7F 7 [0xA5] 1).writerSide ∧ SinkClosedExactly (writerAt 0x7F 7 [0xA5] 1).writerSide ∧
    ∃ t, exec .wrbit (writerAt 0x7F 7 [0xA5] 1) = .next t := by
  exact ⟨by decide, by decide, ⟨_, rfl⟩⟩

theorem witness_EveryStepKeepsTheInvariants :
    MachineInv (awaiting writerClosed .bwRst) ∧ ∃ t, step (awaiting writerClosed .bwRst) = .next t := by
  exact ⟨by decide, ⟨_, rfl⟩⟩

theorem witness_EndOfStreamFlagIsSticky :
    Instr.rdbyte ≠ .rbind ∧ (readerAt 0xA5 3 true 1 [0xA5]).br.eof = true ∧
    ∃ t, exec .rdbyte (readerAt 0xA5 3 true 1 [0xA5]) = .next t := by
  exact ⟨by decide, rfl, ⟨_, rfl⟩⟩

theorem witness_BindFetchesTheFirstByte :
    ((readerOver [0x06]).br.life = .unbound ∧ (readerOver [0x06]).src.released = false ∧
      (readerOver [0x06]).src.bytes[(readerOver [0x06]).src.pos]? = some 0x06) ∧
    ((readerOver []).br.life = .unbound ∧ (readerOver []).src.bytes[(readerOver []).src.pos]? = none) := by decide

/-- `n = 0`; `n = 2` and `n = 8` (m = 1 and m = 7); `n = 1` with a byte to come, with none, and with `eof` set. -/
theorem witness_BitReadOnTheRegisters :
    (readerAt 0xB1 0 true 1 [0xB1]).br.n = 0 ∧
    (readerAt 0xB1 2 false 1 [0xB1]).br.n.toNat = 1 + 1 ∧ (readerAt 0xB1 8 false 1 [0xB1]).br.n.toNat = 7 + 1 ∧
    ((readerAt 0xB1 1 false 1 [0xB1, 0x3C]).br.n.toNat = 0 + 1 ∧ (readerAt 0xB1 1 false 1 [0xB1, 0x3C]).src.bytes[1]? = some 0x3C) ∧
    ((readerAt 0xB1 1 false 1 [0xB1]).br.n.toNat = 0 + 1 ∧ (readerAt 0xB1 1 false 1 [0xB1]).src.bytes[1]? = none) ∧
    ((readerAt 0xB1 1 true 1 [0xB1]).br.n.toNat = 0 + 1 ∧ (readerAt 0xB1 1 true 1 [0xB1]).br.eof = true) := by decide

/-- One bit, none, exactly 12, 11 for 12, and 8 for 16. -/
theorem witness_BitAndWidthReadsFollowTheRemainingBits :
    (ReaderInv (readerAt 0x01 1 false 1 [0x01]).readerSide ∧ (readerAt 0x01 1 false 1 [0x01]).readerSide.rem.length = 1) ∧
    (ReaderInv (readerAt 0x00 0 true 0 []).readerSide ∧ (readerAt 0x00 0 true 0 []).readerSide.rem.length = 0) ∧
    (ReaderInv (readerAt 0xAB 4 false 1 [0xAB, 0xC0]).readerSide ∧ (readerAt 0xAB 4 false 1 [0xAB, 0xC0]).readerSide.rem.length = 12) ∧
    (ReaderInv (readerAt 0xAB 3 false 1 [0xAB, 0xC0]).readerSide ∧ (readerAt 0xAB 3 false 1 [0xAB, 0xC0]).readerSide.rem.length < 12) ∧
    (ReaderInv (readerAt 0x12 8 false 1 [0x12]).readerSide ∧ (readerAt 0x12 8 false 1 [0x12]).readerSide.rem.length < 16) := by
  refine ⟨⟨?_, ?_⟩, ⟨?_, ?_⟩, ⟨?_, ?_⟩, ⟨?_, ?_⟩, ⟨?_, ?_⟩⟩ <;> decide

/-- Exactly enough and one too few, for the widest. -/
theorem witness_ByteReadsFollowTheRemainingBits :
    (Instr.rdlong, 8) ∈ [(Instr.rdbyte, 1), (.rdshort, 2), (.rdint, 4), (.rdlong, 8)] ∧
    (ReaderInv (readerAt 0x80 8 false 1 [0x80, 0, 0, 0, 0, 0, 0, 1]).readerSide ∧
      (readerAt 0x80 8 false 1 [0x80, 0, 0, 0, 0, 0, 0, 1]).readerSide.rem.length = 64) ∧
    (ReaderInv (readerAt 0x80 7 false 1 [0x80, 0, 0, 0, 0, 0, 0, 1]).readerSide ∧
      (readerAt 0x80 7 false 1 [0x80, 0, 0, 0, 0, 0, 0, 1]).readerSide.rem.length = 63) := by
  refine ⟨?_, ⟨?_, ?_⟩, ⟨?_, ?_⟩⟩ <;> decide

theorem witness_ReadAllFollowsTheRemainingBits :
    (ReaderInv (readerAt 0x61 8 false 1 [0x61]).readerSide ∧ (readerAt 0x61 8 false 1 [0x61]).readerSide.rem.length % 8 = 0) ∧
    (ReaderInv (readerAt 0xA5 1 false 1 [0xA5, 0x3C]).readerSide ∧
      (readerAt 0xA5 1 false 1 [0xA5, 0x3C]).readerSide.rem.length % 8 ≠ 0) ∧
    ((readerOver []).br.life = .unbound ∧ (readerOver []).src.pos = 0 ∧ (readerOver []).src.released = false) := by
  refine ⟨⟨?_, ?_⟩, ⟨?_, ?_⟩, ?_⟩ <;> decide

/-- The same remaining bits `101` in two different readers, a read that succeeds and one that fails. -/
theorem witness_ReadsDependOnTheRemainingBitsAlone :
    ReaderInv (readerAt 0xA5 3 true 1 [0xA5]).readerSide ∧ ReaderInv (readerAt 0x0D 3 false 2 [0x00, 0x0D]).readerSide ∧
    (readerAt 0xA5 3 true 1 [0xA5]).readerSide.rem = (readerAt 0x0D 3 false 2 [0x00, 0x0D]).readerSide.rem ∧
    (∃ t, exec (.rdbits 3) (readerAt 0xA5 3 true 1 [0xA5]) = .next t) ∧
    (∃ t, exec (.rdbits 3) (readerAt 0x0D 3 false 2 [0x00, 0x0D]) = .next t) ∧
    (∃ t, exec .rdall (readerAt 0xA5 3 true 1 [0xA5]) = .next t) ∧
    (∃ t, exec .rdall (readerAt 0x0D 3 false 2 [0x00, 0x0D]) = .next t) := by
  exact ⟨by decide, by decide, by decide, ⟨_, rfl⟩, ⟨_, rfl⟩, ⟨_, rfl⟩, ⟨_, rfl⟩⟩

/-- `n = 1` and `n = 7` in both units. -/
theorem witness_UnalignedBytesAreSpliced :
    (0 < (readerAt 0xA5 1 false 1 [0xA5, 0x3C]).br.n.toNat ∧ (readerAt 0xA5 1 false 1 [0xA5, 0x3C]).src.bytes[1]? = some 0x3C) ∧
    ((readerAt 0xA5 7 false 1 [0xA5, 0x3C]).br.n.toNat < 8 ∧ (readerAt 0xA5 7 false 1 [0xA5, 0x3C]).src.bytes[1]? = some 0x3C) ∧
    (0 < (writerAt 0x01 1 [] 0x3C).bw.n.toNat ∧ WriterInv (writerAt 0x01 1 [] 0x3C).writerSide) ∧
    (0 < (writerAt 0x7F 7 [] 0x3C).bw.n.toNat ∧ WriterInv (writerAt 0x7F 7 [] 0x3C).writerSide) := by decide

/-- A writer command; a read that fails, each cause of a byte read's failure, `RDALL` off a boundary, and `RBIND`. -/
theorem witness_EndOfStreamExactlyWhenTooFewBitsRemain :
    (∃ t, exec .wrbit (writerAt 0x00 0 [] 1) = .next t) ∧
    (ReaderInv (readerAt 0xAB 3 false 1 [0xAB, 0xC0]).readerSide ∧
      ∃ t, exec (.rdbits 12) (readerAt 0xAB 3 false 1 [0xAB, 0xC0]) = .next t ∧ lastStatus .reader t = some .eos ∧
        ∃ u, exec .rdshort t = .next u) ∧
    (ReaderInv (readerAt 0xA5 3 true 1 [0xA5]).readerSide ∧ ∃ t, exec .rdbyte (readerAt 0xA5 3 true 1 [0xA5]) = .next t) ∧
    (ReaderInv (readerAt 0xA5 3 false 1 [0xA5]).readerSide ∧ ∃ t, exec .rdall (readerAt 0xA5 3 false 1 [0xA5]) = .next t) ∧
    (ReaderInv (readerAt 0x00 0 true 0 []).readerSide ∧ ∃ t, exec .rdbit (readerAt 0x00 0 true 0 []) = .next t) ∧
    (ReaderInv (readerOver []).readerSide ∧ ∃ t, exec .rbind (readerOver []) = .next t) := by
  exact ⟨⟨_, rfl⟩, ⟨by decide, _, rfl, rfl, _, rfl⟩, ⟨by decide, _, rfl⟩, ⟨by decide, _, rfl⟩, ⟨by decide, _, rfl⟩, ⟨by decide, _, rfl⟩⟩

theorem witness_ByteReadIsEightBitReads :
    ReaderInv (readerAt 0xA5 3 false 1 [0xA5, 0x3C]).readerSide ∧ (readerAt 0xA5 3 false 1 [0xA5, 0x3C]).br.life = .bound ∧
    ReaderInv (readerAt 0xA5 8 false 1 [0xA5]).readerSide := by
  refine ⟨?_, ?_, ?_⟩ <;> decide

theorem witness_ReaderCloseReleasesAndRecloseIsNothing :
    (readerAt 0x11 4 false 2 [0x06, 0x11]).br.life = .bound ∧ readerClosed.br.life = .closed ∧ writerClosed.bw.life = .closed := by
  decide

theorem witness_BindEmptiesTheWriter : State.reset.bw.life = .unbound := by decide

/-- `n = 0`, `n = 6` and `n = 7`, with the accumulator as full as it gets. -/
theorem witness_BitWriteOnTheRegisters :
    ((writerAt 0x00 0 [] 1).bw.n.toNat < 7 ∧ (writerAt 0x00 0 [] 1).bw.buf.toNat < 128) ∧
    ((writerAt 0x3F 6 [] 1).bw.n.toNat < 7 ∧ (writerAt 0x3F 6 [] 1).bw.buf.toNat < 128) ∧
    ((writerAt 0x7F 7 [] 1).bw.n = 7 ∧ (writerAt 0x7F 7 [] 1).bw.buf.toNat < 128 ∧ (writerAt 0x7F 7 [] 1).snk.closed = false) := by
  decide

theorem witness_FlushPadsWithZerosBelow :
    (writerAt 0x00 0 [] 0).bw.n = 0 ∧
    (WriterInv (writerAt 0x01 1 [] 0).writerSide ∧ (writerAt 0x01 1 [] 0).bw.n ≠ 0) ∧
    (WriterInv (writerAt 0x7F 7 [] 0).writerSide ∧ (writerAt 0x7F 7 [] 0).bw.n ≠ 0) := by decide

/-- An empty and an almost full writer, widths 1, 32 and 64; and a writer to bind. -/
theorem witness_WritesAppendTheirBits :
    (State.reset.bw.life = .unbound ∧ State.reset.snk.bytes = []) ∧
    (WriterInv (writerAt 0x00 0 [] 5).writerSide ∧ WriterInv (writerAt 0x7F 7 [0xA5] 5).writerSide ∧
      (writerAt 0x7F 7 [0xA5] 5).bw.life = .bound ∧ (writerAt 0x7F 7 [0xA5] 5).snk.closed = false) ∧
    (writeWidthOf (.wrbits 1) = some 1 ∧ badWidth (.wrbits 1) = false) ∧
    (writeWidthOf (.wrbits 32) = some 32 ∧ badWidth (.wrbits 32) = false) ∧ writeWidthOf .wrlong = some 64 := by decide

/-- A whole number of bytes, one bit more, and one bit less. -/
theorem witness_FlushAndCloseAppendThePad :
    (WriterInv (writerAt 0x00 0 [0xA5] 0).writerSide ∧ (writerAt 0x00 0 [0xA5] 0).writerSide.written.length % 8 = 0) ∧
    (WriterInv (writerAt 0x01 1 [0xA5] 0).writerSide ∧ (writerAt 0x01 1 [0xA5] 0).writerSide.written.length % 8 = 1) ∧
    (WriterInv (writerAt 0x7F 7 [] 0).writerSide ∧ (writerAt 0x7F 7 [] 0).writerSide.written.length % 8 = 7) := by decide

/-- Two operands that agree in the low 12 bits and nowhere above. -/
theorem witness_UnusedOperandBitsAreIgnored :
    ∀ k, writeWidthOf (.wrbits 12) = some k → badWidth (.wrbits 12) = false → ∀ j < k,
      (0x061 : Data).getLsbD j = (writerAt 0x00 0 [] 0xFFFFFFFFFFFFF061).bwWdata.getLsbD j := by
  intro k hk _
  cases hk
  decide

theorem witness_BoundaryWidthsMatchTheDedicatedPaths :
    (3 : Data).getLsbD 0 = (writerAt 0x00 0 [] 1).bwWdata.getLsbD 0 ∧
    (0xFFFFFFFF00000001 : Data).extractLsb' 0 32 = (writerAt 0x00 0 [] 1).bwWdata.extractLsb' 0 32 := by decide

/-- The narrowest split and the widest. -/
theorem witness_ReadsSplit :
    ReaderInv (readerAt 0xFF 8 false 1 [0xFF, 0xFF, 0xFF, 0xFF]).readerSide ∧
    (readerAt 0xFF 8 false 1 [0xFF, 0xFF, 0xFF, 0xFF]).br.life = .bound ∧
    1 + 1 ≤ (readerAt 0xFF 8 false 1 [0xFF, 0xFF, 0xFF, 0xFF]).readerSide.rem.length ∧
    16 + 16 ≤ (readerAt 0xFF 8 false 1 [0xFF, 0xFF, 0xFF, 0xFF]).readerSide.rem.length := by decide

theorem witness_WritesSplit :
    WriterInv (writerAt 0x7F 7 [] 0).writerSide ∧ (writerAt 0x7F 7 [] 0).bw.life = .bound ∧
    (writerAt 0x7F 7 [] 0).snk.closed = false ∧ 1 ≤ 1 ∧ 1 + 31 ≤ 32 := by decide

/-- A reader command with two states that agree on the reader alone, a writer command likewise, and two interleavings. -/
theorem witness_TheUnitsAreIndependent :
    (∃ t, exec .rdbit (readerAt 0xB1 8 false 1 [0xB1]) = .next t ∧
      ({ readerAt 0xB1 8 false 1 [0xB1] with bw := { buf := 0x01, n := 1, life := .bound } } : State).readerSide =
        (readerAt 0xB1 8 false 1 [0xB1]).readerSide) ∧
    (∃ t, exec .wrbit (writerAt 0x00 0 [] 1) = .next t ∧
      ({ writerAt 0x00 0 [] 1 with brWdata := 5 } : State).writerSide = (writerAt 0x00 0 [] 1).writerSide ∧
      ({ writerAt 0x00 0 [] 1 with brWdata := 5 } : State).bwWdata = (writerAt 0x00 0 [] 1).bwWdata) ∧
    ([Input.readerCmd 0x1000 0, .writerCmd 0x2000 0].filter (fun e => e.isReader) =
      [Input.writerCmd 0x2000 0, .readerCmd 0x1000 0].filter (fun e => e.isReader)) ∧
    ([Input.readerCmd 0x1000 0, .writerCmd 0x2000 0].filter (fun e => !e.isReader) =
      [Input.writerCmd 0x2000 0, .readerCmd 0x1000 0].filter (fun e => !e.isReader)) ∧
    ∃ t, Host.Core.run Sys2Proof.core 2 { State.reset with inputs := [.readerCmd 0x1000 0, .writerCmd 0x2000 0] } = .next t := by
  exact ⟨⟨_, rfl, rfl⟩, ⟨_, rfl, rfl, rfl⟩, by decide, by decide, ⟨_, rfl⟩⟩

/-- A stream of every kind of field whose bits and pad a source holds, and read widths that take all of it: `[A5 C0]` is `1`, then
`010` and `0101`, then `11` and six pad zeros. -/
theorem witness_WrittenStreamsReadBack :
    (∀ f ∈ [Field.bit 1, .bits 3 2, .bits 4 5, .bits 2 3], f.legal = true) ∧
    ([Field.bit 1, .bits 3 2, .bits 4 5, .bits 2 3].map Field.width).sum = 10 ∧
    State.reset.bw.life = .unbound ∧ State.reset.snk = { bytes := [], closed := false } ∧
    (readerOver [0xA5, 0xC0]).br.life = .unbound ∧
    (readerOver [0xA5, 0xC0]).src = { bytes := [0xA5, 0xC0], pos := 0, released := false } ∧
    streamBits [0xA5, 0xC0] = [Field.bit 1, .bits 3 2, .bits 4 5, .bits 2 3].flatMap Field.bitsOf ++ List.replicate 6 false ∧
    (∀ g ∈ [Field.byte 0, .bits 8 0], g.legal = true) ∧
    ([Field.byte 0, .bits 8 0].map Field.width).sum ≤ 8 * [(0xA5 : Byte), 0xC0].length ∧
    (∀ f ∈ [Field.short 0, .int 0, .long 0, .bits 1 0, .bits 32 0], f.legal = true) := by decide

theorem witness_CodewordStreamIsDenselyPacked :
    State.reset.bw.life = .unbound ∧ State.reset.snk = { bytes := [], closed := false } := by decide

end Sys2Proof.Tests
end

/-! ### The answers `ST_INVALID_ARG` and `ST_STATE`, and the inversions of Laws/Commands.lean read backwards (R132, R133) -/

namespace Sys2Proof.Machine

theorem dataRead_refused {α : Type} (body : ReaderSide → ReadOut α) (rdata : α → Data) (rbytes : α → List Byte) {s : State}
    (hl : s.br.life ≠ .bound) : dataRead body rdata rbytes s = raiseOn .reader .state s :=
  if_neg hl

theorem dataWrite_refused (body : WriterSide → Except Fault WriterSide) {s : State} (hl : s.bw.life ≠ .bound) :
    dataWrite body s = raiseOn .writer .state s :=
  if_neg hl

/-- An illegal width is answered `ST_INVALID_ARG` and changes nothing else, in every state (R132). -/
theorem exec_invalid {i : Instr} (hw : badWidth i = true) (s : State) : exec i s = raiseOn i.port .invalidArg s := by
  cases i
  case rdbits k => exact if_neg fun hk => Bool.false_ne_true (((badWidth_rdbits k).mpr hk).symm.trans hw)
  case wrbits k => exact if_neg fun hk => Bool.false_ne_true (((badWidth_wrbits k).mpr hk).symm.trans hw)
  all_goals exact absurd hw Bool.false_ne_true

/-- A command that the lifecycle state does not allow is answered `ST_STATE` and changes nothing else (R133). -/
theorem exec_refused {i : Instr} {s : State} (hw : badWidth i = false) (hs : stateRefused i (lifeOf i.port s) = true) :
    exec i s = raiseOn i.port .state s := by
  cases i <;> simp only [stateRefused, lifeOf, Instr.port, bne_iff_ne, beq_iff_eq, reduceCtorEq] at hs
  case rbind => exact if_neg hs
  case wbind => exact if_neg hs
  case rclose => simp only [exec, execRclose, hs, Instr.port]
  case wclose => simp only [exec, execWclose, hs, Instr.port]
  case rdbits k => rw [exec_read rfl hw]; exact dataRead_refused _ _ _ hs
  case wrbits k => rw [exec_write rfl hw]; exact dataWrite_refused _ hs
  case wrbit | wrbyte | wrshort | wrint | wrlong | flush => exact dataWrite_refused _ hs
  all_goals exact dataRead_refused _ _ _ hs

/-- What a reader command can do from a state it does from every state with the same reader's side. -/
theorem exec_of_readerDoes {i : Instr} {s s' : State} {r : ReaderSide} {q : ReaderResponse} (hp : i.port = .reader)
    (hd : ReaderDoes s i r q) (hs : s'.readerSide = s.readerSide) : exec i s' = .next ((s'.setReader r).answerReader q) := by
  have hbr : s'.br = s.br := congrArg ReaderSide.br hs
  cases hd with
  | invalid hw => rw [exec_invalid hw, hp, ← hs]; rfl
  | wrongState hw hr => rw [exec_refused hw (by rw [hp, lifeOf, hbr]; exact hr), hp, ← hs]; rfl
  | bind hl h => simp [exec, execRbind, hbr, hl, hs, h, finishReader, returnReader]
  | read hb hw hl h => rw [exec_read hb hw]; exact dataRead_ok (hbr ▸ hl) (hs ▸ h)
  | readEos hb hw hl h => rw [exec_read hb hw]; exact dataRead_eos (hbr ▸ hl) (hs ▸ h)
  | all hl h => exact dataRead_ok (hbr ▸ hl) (hs ▸ h)
  | allEos hl h => exact dataRead_eos (hbr ▸ hl) (hs ▸ h)
  | stat => rw [← hs, ← hbr]; rfl
  | close hl => simp [exec, execRclose, hbr, hl, hs, returnReader]
  | reclose hl => rw [← hs]; simp only [exec, execRclose, hbr, hl]; rfl

/-- What a writer command can do from a state it does from every state with the same writer's side and the same operand. -/
theorem exec_of_writerDoes {i : Instr} {s s' : State} {w : WriterSide} {q : WriterResponse} (hp : i.port = .writer)
    (hd : WriterDoes s i w q) (hs : s'.writerSide = s.writerSide) (hv : s'.bwWdata = s.bwWdata) :
    exec i s' = .next ((s'.setWriter w).answerWriter q) := by
  have hbw : s'.bw = s.bw := congrArg WriterSide.bw hs
  cases hd with
  | invalid hw => rw [exec_invalid hw, hp, ← hs]; rfl
  | wrongState hw hr => rw [exec_refused hw (by rw [hp, lifeOf, hbw]; exact hr), hp, ← hs]; rfl
  | bind hl => simp [exec, execWbind, hbw, hl, hs, returnWriter]
  | write hb hw hl h => rw [exec_write hb hw]; exact dataWrite_ok (hbw ▸ hl) (by rw [hs, hv]; exact h)
  | flush hl h => exact dataWrite_ok (hbw ▸ hl) (hs ▸ h)
  | stat => rw [← hs, ← hbw]; rfl
  | close hl h => simp [exec, execWclose, hbw, hl, hs, h, closeWriter, finishWriter, returnWriter]
  | reclose hl => rw [← hs]; simp only [exec, execWclose, hbw, hl]; rfl

/-- A reader command reads and writes the reader's side alone, and gives one response (R27). -/
theorem exec_reader_local {i : Instr} {s t : State} (hp : i.port = .reader) (h : exec i s = .next t) :
    ∃ q, t = (s.setReader t.readerSide).answerReader q ∧
      ∀ s' : State, s'.readerSide = s.readerSide → exec i s' = .next ((s'.setReader t.readerSide).answerReader q) := by
  obtain ⟨r, q, rfl, hd⟩ := reader_next hp h
  exact ⟨q, rfl, fun s' hs => exec_of_readerDoes hp hd hs⟩

/-- A writer command reads the writer's side and its operand alone, writes that side, and gives one response (R27). -/
theorem exec_writer_local {i : Instr} {s t : State} (hp : i.port = .writer) (h : exec i s = .next t) :
    ∃ q, t = (s.setWriter t.writerSide).answerWriter q ∧
      ∀ s' : State, s'.writerSide = s.writerSide → s'.bwWdata = s.bwWdata →
        exec i s' = .next ((s'.setWriter t.writerSide).answerWriter q) := by
  obtain ⟨w, q, rfl, hd⟩ := writer_next hp h
  exact ⟨q, rfl, fun s' hs hv => exec_of_writerDoes hp hd hs hv⟩

end Sys2Proof.Machine

/-! ### The reader's invariants under the reader commands (R23) -/

namespace Sys2Proof.Machine

/-- The bind asks the source, so one that answers found it not released (R32). -/
theorem bindReader_ok_released {r r' : ReaderSide} {b : Bool} (h : bindReader r = .ok b r') : r.src.released = false := by
  cases hr : r.src.released
  · rfl
  · simp [bindReader, fill, hr] at h

/-- `RCLOSE` leaves the state of (e): nothing resident, `eof` set, the source released (R81). -/
theorem closeReader_inv {r : ReaderSide} (h : ReaderInv r) : ReaderInv (closeReader r) := by
  obtain ⟨-, -, -, -, -, -, -, hpos, -, -⟩ := h
  simpa [ReaderInv, closeReader, Source.release] using hpos

/-- Whichever way a reader command ends, the side it leaves meets the invariants (R23). -/
theorem ReaderDoes.inv {s : State} {i : Instr} {r : ReaderSide} {q : ReaderResponse} (hd : ReaderDoes s i r q)
    (h : ReaderInv s.readerSide) : ReaderInv r := by
  have read_ends : ∀ {body : ReaderSide → ReadOut Data}, readBody i = some body → badWidth i = false → s.br.life = .bound →
      (body s.readerSide).Ends (fun _ r' => ReaderInv r') (fun r' => ReaderInv r') False := by
    intro body hb hw hl
    obtain ⟨k, hk⟩ := Option.isSome_iff_exists.mp ((readBody_isSome i).symm.trans (by rw [hb]; rfl))
    exact (readBody_spec hb hk hw ⟨h, hl⟩).mono (fun _ _ hv => hv.1.inv) (fun _ he => he.1.inv) id
  cases hd with
  | invalid | wrongState | stat | reclose => exact h
  | bind hl hb =>
    obtain ⟨-, -, -, -, -, -, -, hpos, -, -⟩ := h
    have hs := bindReader_spec hpos (bindReader_ok_released hb)
    rw [hb] at hs
    exact hs.1.inv
  | read hb hw hl hr => have hs := read_ends hb hw hl; rw [hr] at hs; exact hs
  | readEos hb hw hl hr => have hs := read_ends hb hw hl; rw [hr] at hs; exact hs
  | all hl hr => have hs := readAll_spec ⟨h, hl⟩; rw [hr] at hs; exact hs.1.inv
  | allEos hl hr => have hs := readAll_spec ⟨h, hl⟩; rw [hr] at hs; exact hs.1.inv
  | close hl => exact closeReader_inv h

/-- Every command keeps the reader's invariants; a writer command does not touch the reader's side (R23, R27). -/
theorem exec_keeps_readerInv {i : Instr} {s t : State} (h : ReaderInv s.readerSide) (he : exec i s = .next t) :
    ReaderInv t.readerSide := by
  cases hp : i.port
  case reader =>
    obtain ⟨r, q, rfl, hd⟩ := reader_next hp he
    exact hd.inv h
  case writer =>
    obtain ⟨w, q, rfl, -⟩ := writer_next hp he
    exact h

/-- Three resident bits of the last byte and a source at its end that has not said so yet: a byte read from here sets `eof` and
keeps the three bits (R73). -/
def threeBitsLeft : State :=
  { State.reset with
    br := { buf := 0x3C, n := 3, eof := false, life := .bound }
    src := { bytes := [0x3C], pos := 1, released := false } }

theorem exec_rdbyte_threeBitsLeft :
    exec .rdbyte threeBitsLeft = .next
      (({ threeBitsLeft with br := { threeBitsLeft.br with eof := true } } : State).answerReader
        { status := .eos, rdata := 0, rbytes := [] }) :=
  rfl

/-- Settles O21: the inversion of a reader command lists the sides it can leave, and each of them meets the invariants. -/
theorem readerCommandsKeepTheReaderInvariants : Obligations.ReaderCommandsKeepTheReaderInvariants := by
  unfold Obligations.ReaderCommandsKeepTheReaderInvariants
  exact ⟨by decide, fun i s t => exec_keeps_readerInv, threeBitsLeft, _, by decide, exec_rdbyte_threeBitsLeft, by decide⟩

end Sys2Proof.Machine

/-! ### Each input touches one unit, so inputs of the two units commute (R27) -/

namespace Sys2Proof.Machine

/-- The unit an input belongs to (R51, R150). -/
def Input.unit (e : Input) : Port := if e.isReader then .reader else .writer

/-- All that belongs to one unit taken from `u`: its side, its operand lines and its responses. -/
def State.withUnit (p : Port) (s u : State) : State :=
  match p with
  | .reader => { s with br := u.br, src := u.src, brWdata := u.brWdata, brRsp := u.brRsp }
  | .writer => { s with bw := u.bw, snk := u.snk, bwWdata := u.bwWdata, bwRsp := u.bwRsp }

@[simp] theorem State.withUnit_self (p : Port) (s : State) : s.withUnit p s = s := by
  cases p <;> rfl

@[simp] theorem State.withUnit_inputs (p : Port) (s u : State) : (s.withUnit p u).inputs = s.inputs := by
  cases p <;> rfl

/-- The waiting inputs belong to no unit. -/
theorem State.withUnit_setInputs (p : Port) (s u : State) (l : List Input) :
    ({ s with inputs := l } : State).withUnit p u = { s.withUnit p u with inputs := l } := by
  cases p <;> rfl

section
variable {p p' : Port}

/-- A change of the one unit is not seen by the other. -/
theorem State.withUnit_other (hp : p ≠ p') (s u : State) : s.withUnit p' (s.withUnit p u) = s := by
  cases p <;> cases p' <;> simp [State.withUnit] at hp ⊢

theorem State.withUnit_comm (hp : p ≠ p') (s u t : State) :
    (s.withUnit p u).withUnit p' t = (s.withUnit p' t).withUnit p u := by
  cases p <;> cases p' <;> simp [State.withUnit] at hp ⊢

end

/-- A command of a unit reads and writes that unit alone. -/
theorem exec_withUnit {i : Instr} {d : Data} {s t : State} (h : exec i (s.setWdata i.port d) = .next t) (s' : State) :
    exec i ((s'.withUnit i.port s).setWdata i.port d) = .next (s'.withUnit i.port t) := by
  cases hp : i.port <;> rw [hp] at h
  case reader =>
    obtain ⟨r, q, rfl, hd⟩ := reader_next hp h
    exact exec_of_readerDoes hp hd rfl
  case writer =>
    obtain ⟨w, q, rfl, hd⟩ := writer_next hp h
    exact exec_of_writerDoes hp hd rfl rfl

/-- A word on a unit's channel, a command or an illegal one, reads and writes that unit alone. -/
theorem runCommand_withUnit {p : Port} {w : Cmd} {d : Data} {s t : State} (h : runCommand p w d s = .next t) (s' : State) :
    runCommand p w d (s'.withUnit p s) = .next (s'.withUnit p t) := by
  cases hc : commandOn p w with
  | some i =>
    obtain ⟨-, rfl⟩ := commandOn_some.mp hc
    rw [runCommand_some hc] at h ⊢
    exact exec_withUnit h s'
  | none =>
    rw [runCommand_none hc] at h ⊢
    cases p <;> cases h <;> rfl

/-- Every input reads and writes its own unit alone: on any other state with the same unit it does the same (R27). -/
theorem handleInput_withUnit {e : Input} {s t : State} (h : handleInput e s = .next t) (s' : State) :
    handleInput e (s'.withUnit e.unit s) = .next (s'.withUnit e.unit t) := by
  cases e with
  | readerCmd w d => exact runCommand_withUnit h s'
  | writerCmd w d => exact runCommand_withUnit h s'
  | brRst => cases h; rfl
  | bwRst => cases h; rfl
  | presentSource bs =>
    simp only [handleInput] at h
    split at h <;> cases h
    exact if_pos ‹_›
  | presentSink =>
    simp only [handleInput] at h
    split at h <;> cases h
    exact if_pos ‹_›

/-- An input changes its own unit and nothing else. -/
theorem handleInput_frame {e : Input} {s t : State} (h : handleInput e s = .next t) : t = s.withUnit e.unit t := by
  have hs := handleInput_withUnit h s
  rw [State.withUnit_self, h] at hs
  exact Host.Outcome.next.inj hs

/-- An input does not see the inputs that wait behind it. -/
theorem handleInput_setInputs {e : Input} {s t : State} (h : handleInput e s = .next t) (l : List Input) :
    handleInput e { s with inputs := l } = .next { t with inputs := l } := by
  have hs := handleInput_withUnit h { s with inputs := l }
  rwa [State.withUnit_setInputs _ s s, State.withUnit_setInputs _ s t, State.withUnit_self, ← handleInput_frame h] at hs

/-- Two inputs of different units may change places. -/
theorem handleInput_swap {e e' : Input} {s u t : State} (hne : e.unit ≠ e'.unit) (h : handleInput e s = .next u)
    (h' : handleInput e' u = .next t) : ∃ u', handleInput e' s = .next u' ∧ handleInput e u' = .next t := by
  have hu := handleInput_frame h
  have ht := handleInput_frame h'
  have hfirst := handleInput_withUnit h' s
  have hsecond := handleInput_withUnit h (s.withUnit e'.unit t)
  rw [hu, State.withUnit_other hne] at hfirst
  rw [State.withUnit_comm hne.symm, State.withUnit_self, State.withUnit_comm hne.symm, ← hu, ← ht] at hsecond
  exact ⟨_, hfirst, hsecond⟩

/-! ### Runs over a list of inputs -/

/-- The machine takes all of `l` from `s` and ends in `t`. -/
def RunsTo (s : State) (l : List Input) (t : State) : Prop :=
  Host.Core.run Sys2Proof.core l.length { s with inputs := l } = .next t

theorem coreRun_succ_next {M : Host.Core} {k : Nat} {s t : M.State} :
    M.run (k + 1) s = .next t ↔ ∃ u, M.step s = .next u ∧ M.run k u = .next t := by
  rw [Host.Core.run]
  cases M.step s <;> simp

/-- A run takes its first input and then the rest. -/
theorem runsTo_cons {e : Input} {l : List Input} {s t : State} :
    RunsTo s (e :: l) t ↔ ∃ u, handleInput e s = .next u ∧ RunsTo u l t := by
  have hfirst : RunsTo s (e :: l) t ↔
      ∃ v : State, handleInput e { s with inputs := l } = .next v ∧ Host.Core.run Sys2Proof.core l.length v = .next t :=
    coreRun_succ_next (M := Sys2Proof.core)
  rw [hfirst]
  constructor
  · rintro ⟨v, hv, hrun⟩
    have hl : v.inputs = l := by rw [handleInput_frame hv, State.withUnit_inputs]
    refine ⟨{ v with inputs := s.inputs }, handleInput_setInputs hv s.inputs, ?_⟩
    subst hl
    exact hrun
  · rintro ⟨u, hu, hrun⟩
    exact ⟨_, handleInput_setInputs hu l, hrun⟩

theorem runsTo_cons_congr {e : Input} {l l' : List Input} {t : State} (h : ∀ u, RunsTo u l t ↔ RunsTo u l' t) (s : State) :
    RunsTo s (e :: l) t ↔ RunsTo s (e :: l') t := by
  simp only [runsTo_cons, h]

theorem runsTo_swap {e e' : Input} {l : List Input} {s t : State} (hne : e.unit ≠ e'.unit) (h : RunsTo s (e :: e' :: l) t) :
    RunsTo s (e' :: e :: l) t := by
  simp only [runsTo_cons] at h ⊢
  obtain ⟨u, hu, v, hv, hrun⟩ := h
  obtain ⟨u', hu', hv'⟩ := handleInput_swap hne hu hv
  exact ⟨u', hu', v, hv', hrun⟩

/-- An input may move behind any inputs of the other unit. -/
theorem runsTo_move {e : Input} {m l : List Input} {t : State} (hm : ∀ x ∈ m, x.unit ≠ e.unit) (s : State) :
    RunsTo s (e :: (m ++ l)) t ↔ RunsTo s (m ++ e :: l) t := by
  induction m generalizing s with
  | nil => rfl
  | cons x m ih =>
    obtain ⟨hx, hm⟩ := List.forall_mem_cons.mp hm
    calc RunsTo s (e :: x :: (m ++ l)) t
        ↔ RunsTo s (x :: e :: (m ++ l)) t := ⟨runsTo_swap hx.symm, runsTo_swap hx⟩
      _ ↔ RunsTo s (x :: (m ++ e :: l)) t := runsTo_cons_congr (ih hm) s

/-- A run ends as the run of the reader's inputs followed by the writer's (R27). -/
theorem runsTo_sorted (l : List Input) (s t : State) :
    RunsTo s l t ↔ RunsTo s (l.filter (fun e => e.isReader) ++ l.filter (fun e => !e.isReader)) t := by
  induction l generalizing s with
  | nil => rfl
  | cons e l ih =>
    rw [runsTo_cons_congr ih]
    cases he : e.isReader
    case true => simp [he]
    case false =>
      have hm : ∀ x ∈ l.filter (fun e => e.isReader), x.unit ≠ e.unit := by
        intro x hx
        simp [Input.unit, (List.mem_filter.mp hx).2, he]
      simpa [he] using runsTo_move hm s

/-- Settles O45: a command sees and changes its own unit alone, so inputs of the two units change places, and every run ends as the
one that takes the reader's inputs first. -/
theorem theUnitsAreIndependent : Obligations.TheUnitsAreIndependent := by
  unfold Obligations.TheUnitsAreIndependent
  refine ⟨fun i s t s' hp h hs => ?_, fun i s t s' hp h hs hv => ?_, fun s t l l' hr hw h => ?_⟩
  · obtain ⟨q, ht, hq⟩ := exec_reader_local hp h
    exact ⟨q, ht, hq s' hs⟩
  · obtain ⟨q, ht, hq⟩ := exec_writer_local hp h
    exact ⟨q, ht, hq s' hs hv⟩
  · have hsorted := (runsTo_sorted l s t).mp h
    rw [hr, hw] at hsorted
    exact (runsTo_sorted l' s t).mpr hsorted

end Sys2Proof.Machine

/-! ### Reset (R25) -/

namespace Sys2Proof.Machine

/-- Settles O7: the reset values are read off, and a step that takes a reset input is that unit's reset. -/
theorem resetGivesTheResetValues : Obligations.ResetGivesTheResetValues := by
  unfold Obligations.ResetGivesTheResetValues
  exact ⟨⟨rfl, rfl, rfl, rfl, rfl, by decide, by decide⟩, fun s rest => ⟨step_cons, step_cons⟩⟩

end Sys2Proof.Machine

/-! ### Byte accesses off a byte boundary (R39) -/

namespace Sys2Proof.Machine

/-- `Fill()` loads the byte at `pos` when there is one (R70). -/
theorem fill_loads {r : ReaderSide} {b : Byte} (he : r.br.eof = false) (hr : r.src.released = false)
    (hb : r.src.bytes[r.src.pos]? = some b) :
    fill r = .ok true { br := { r.br with buf := b, n := 8 }, src := { r.src with pos := r.src.pos + 1 } } := by
  simp [fill, he, hr, Source.next, hb]

/-- Case C of `RDBYTE()` with a byte to come: the splice goes out and the count stays (R73). -/
theorem readByte_unaligned {r : ReaderSide} {b : Byte} (h0 : 0 < r.br.n.toNat) (h8 : r.br.n.toNat < 8)
    (he : r.br.eof = false) (hr : r.src.released = false) (hb : r.src.bytes[r.src.pos]? = some b) :
    readByte r = .ok (splice r.br.n.toNat r.br.buf b)
      { br := { r.br with buf := b }, src := { r.src with pos := r.src.pos + 1 } } := by
  have hn0 : r.br.n ≠ 0 := fun h => h0.ne' ((count_eq_zero_iff _).mp h)
  have hn8 : r.br.n ≠ 8 := fun h => h8.ne ((count_eq_eight_iff _).mp h)
  rw [readByte, if_neg hn0, if_neg hn8, fill_loads he hr hb]
  rfl

/-- All but the last `n` of the low `k` bits are those of the quantity shifted down by `n`. -/
theorem bitsLow_take_sub {w n k : Nat} (v : BitVec w) (h : n ≤ k) : (bitsLow v k).take (k - n) = bitsLow (v >>> n) (k - n) := by
  rw [← bitsLow_take, Nat.sub_add_cancel h]

/-- `WRBYTE-body` sends one byte and keeps the count; what was pending and the operand are what was sent and what is pending
now (R39, R92). -/
theorem writeByte_sends_one {w : WriterSide} (h : WriterReady w) (d : Byte) :
    ∃ x y : Byte,
      writeByte d w = .ok { bw := { w.bw with buf := x }, snk := { w.snk with bytes := w.snk.bytes ++ [y] } } ∧
      byteBits y ++ bitsLow x w.bw.n.toNat = bitsLow w.bw.buf w.bw.n.toNat ++ byteBits d := by
  obtain ⟨⟨⟨x, n', life'⟩, ⟨bytes', closed'⟩⟩, hok, hready, hwritten, -⟩ := writeByte_spec d h
  obtain ⟨rfl : life' = w.bw.life, rfl : closed' = w.snk.closed, sent, rfl : w.snk.bytes ++ sent = bytes'⟩ :=
    writeBits_moves d 8 hok
  have hlen := congrArg List.length hwritten
  rw [List.length_append, byteBits_length] at hlen
  obtain ⟨hn, hbytes⟩ := written_position h.1
  obtain ⟨hn', hbytes'⟩ := written_position hready.1
  obtain rfl : n' = w.bw.n := BitVec.eq_of_toNat_eq (by simp only at hn'; omega)
  obtain ⟨y, rfl⟩ : ∃ y, sent = [y] := List.length_eq_one_iff.mp (by rw [List.length_append] at hbytes'; omega)
  exact ⟨x, y, hok, by simpa [WriterSide.written] using hwritten⟩

/-- Settles O31: the read is case C of `RDBYTE()`; in the write the bits sent, then those pending, are the bits pending before, then
the operand's; cut after the eighth, they are the two claims. -/
theorem unalignedBytesAreSpliced : Obligations.UnalignedBytesAreSpliced := by
  unfold Obligations.UnalignedBytesAreSpliced
  constructor
  · intro s b hbound h0 h8 he hr hb
    exact ⟨splice s.br.n.toNat s.br.buf b, dataRead_ok hbound (readByte_unaligned h0 h8 he hr hb),
      by rw [byteBits_splice _ h8.le, byteBits, bitsLow_take_sub _ h8.le]⟩
  · intro s hbound _ hinv hopen
    have hn : s.bw.n.toNat ≤ 8 := Nat.le_succ_of_le hinv.1
    obtain ⟨x, y, hok, hbits⟩ := writeByte_sends_one ⟨hinv, hbound, hopen⟩ (byteOf s.bwWdata 0)
    have hsplit := bitsLow_add s.bwWdata (8 - s.bw.n.toNat) s.bw.n.toNat
    rw [Nat.sub_add_cancel hn] at hsplit
    rw [byteBits_byteOf_zero, hsplit, ← List.append_assoc] at hbits
    obtain ⟨hy, hx⟩ := List.append_inj' hbits (by simp [State.writerSide])
    exact ⟨x, y, dataWrite_ok hbound hok, by rw [bitsLow_take_sub _ hn]; exact hy, hx⟩

end Sys2Proof.Machine

/-! ### The data reads on the remaining bits (R114, R115) -/

namespace Sys2Proof.Machine

/-- The end of a reader command whose body has been described and cannot fault. -/
theorem finishReader_of_ends {α : Type} (rdata : α → Data) (rbytes : α → List Byte) (s : State) {o : ReadOut α}
    {Q : α → ReaderSide → Prop} {E : ReaderSide → Prop} (h : o.Ends Q E False) :
    (∃ v r, Q v r ∧ finishReader rdata rbytes s o =
      .next ((s.setReader r).answerReader { status := .ok, rdata := rdata v, rbytes := rbytes v })) ∨
    (∃ r, E r ∧ finishReader rdata rbytes s o =
      .next ((s.setReader r).answerReader { status := .eos, rdata := 0, rbytes := [] })) := by
  cases o with
  | ok v r => exact .inl ⟨v, r, h, rfl⟩
  | eos r => exact .inr ⟨r, h, rfl⟩
  | fault f => exact h.elim

theorem dataRead_bound {α : Type} (body : ReaderSide → ReadOut α) (rdata : α → Data) (rbytes : α → List Byte) {s : State}
    (hl : s.br.life = .bound) : dataRead body rdata rbytes s = finishReader rdata rbytes s (body s.readerSide) :=
  if_pos hl

section
variable {i : Instr} {k : Nat} {s : State}

/-- Every data read of fixed length: with enough bits to come it answers the value of the next `k` and leaves the rest, else it
answers `ST_EOS` and leaves what a failure of that command leaves (R114, R115). -/
theorem exec_read_cases (hr : ReaderReady s.readerSide) (hk : readWidthOf i = some k) (hw : badWidth i = false) :
    ∃ r, ReaderReady r ∧
      ((k ≤ s.readerSide.rem.length ∧ r.rem = s.readerSide.rem.drop k ∧
        exec i s = .next ((s.setReader r).answerReader
          { status := .ok, rdata := BitVec.ofNat 64 (val (s.readerSide.rem.take k)), rbytes := [] })) ∨
      (s.readerSide.rem.length < k ∧ r.rem = leftByFailure i s.readerSide.rem ∧
        exec i s = .next ((s.setReader r).answerReader { status := .eos, rdata := 0, rbytes := [] }))) := by
  obtain ⟨body, hb⟩ := Option.isSome_iff_exists.mp ((readBody_isSome i).trans (by rw [hk]; rfl))
  rw [exec_read hb hw, dataRead_bound _ _ _ hr.bound]
  obtain ⟨v, r, ⟨hready, hlen, hval, hrem⟩, hx⟩ | ⟨r, ⟨hready, hlen, hrem, -⟩, hx⟩ :=
    finishReader_of_ends (fun v => v) (fun _ => []) s (readBody_spec hb hk hw hr)
  · have hv : v = BitVec.ofNat 64 (val (s.readerSide.rem.take k)) := by rw [← hval, BitVec.ofNat_toNat, BitVec.setWidth_eq]
    exact ⟨r, hready, .inl ⟨hlen, hrem, by rw [hx, hv]⟩⟩
  · exact ⟨r, hready, .inr ⟨hlen, hrem, hx⟩⟩

theorem exec_read_of_enough (hr : ReaderReady s.readerSide) (hk : readWidthOf i = some k) (hw : badWidth i = false)
    (henough : k ≤ s.readerSide.rem.length) :
    ∃ r, exec i s = .next ((s.setReader r).answerReader
        { status := .ok, rdata := BitVec.ofNat 64 (val (s.readerSide.rem.take k)), rbytes := [] }) ∧
      r.rem = s.readerSide.rem.drop k := by
  obtain ⟨r, -, ⟨-, hrem, hx⟩ | ⟨hlen, -, -⟩⟩ := exec_read_cases hr hk hw
  · exact ⟨r, hx, hrem⟩
  · omega

theorem exec_read_of_short (hr : ReaderReady s.readerSide) (hk : readWidthOf i = some k) (hw : badWidth i = false)
    (hshort : s.readerSide.rem.length < k) :
    ∃ r, exec i s = .next ((s.setReader r).answerReader { status := .eos, rdata := 0, rbytes := [] }) ∧
      r.rem = leftByFailure i s.readerSide.rem := by
  obtain ⟨r, -, ⟨hlen, -, -⟩ | ⟨-, hrem, hx⟩⟩ := exec_read_cases hr hk hw
  · omega
  · exact ⟨r, hx, hrem⟩

end

/-- Settles O27: both commands are data reads, and the width decides which path a failure takes. -/
theorem bitAndWidthReadsFollowTheRemainingBits : Obligations.BitAndWidthReadsFollowTheRemainingBits := by
  unfold Obligations.BitAndWidthReadsFollowTheRemainingBits
  rintro s hinv hbound q rfl
  have hr : ReaderReady s.readerSide := ⟨hinv, hbound⟩
  refine ⟨exec_read_of_enough hr rfl rfl, fun h0 => exec_read_of_short hr (k := 1) rfl rfl (by omega), fun k h1 h32 => ?_⟩
  have hw : badWidth (.rdbits k) = false := (badWidth_rdbits k).mpr ⟨h1, h32⟩
  refine ⟨exec_read_of_enough hr rfl hw, fun hlen h8 h16 h32 => ?_, fun hlen hbytes => ?_⟩
  · have hbits : ¬ (k = 8 ∨ k = 16 ∨ k = 32) := by simp [h8, h16, h32]
    have hx := exec_read_of_short hr rfl hw hlen
    rwa [leftByFailure, if_neg hbits] at hx
  · have hx := exec_read_of_short hr rfl hw hlen
    rwa [leftByFailure, if_pos hbytes] at hx

/-- Settles O28: the four commands are data reads of `8 * k` bits whose failure takes the whole bytes alone. -/
theorem byteReadsFollowTheRemainingBits : Obligations.ByteReadsFollowTheRemainingBits := by
  unfold Obligations.ByteReadsFollowTheRemainingBits
  rintro s hinv hbound q rfl i k hi
  have hr : ReaderReady s.readerSide := ⟨hinv, hbound⟩
  obtain ⟨hk, hw, hleft⟩ : readWidthOf i = some (8 * k) ∧ badWidth i = false ∧
      leftByFailure i s.readerSide.rem = s.readerSide.rem.drop (8 * (s.readerSide.rem.length / 8)) := by
    simp only [List.mem_cons, Prod.mk.injEq, List.not_mem_nil, or_false] at hi
    obtain ⟨rfl, rfl⟩ | ⟨rfl, rfl⟩ | ⟨rfl, rfl⟩ | ⟨rfl, rfl⟩ := hi <;> exact ⟨rfl, rfl, rfl⟩
  exact ⟨exec_read_of_enough hr hk hw, fun hlen => hleft ▸ exec_read_of_short hr hk hw hlen⟩

end Sys2Proof.Machine

/-! ### `RDALL`, and `RBIND` on the remaining bits (R113, R116) -/

namespace Sys2Proof.Machine

section
variable {s : State}

/-- `RDALL` takes every whole byte to come: it answers them if no bit is over, else `ST_EOS`, and the odd bits stay (R116). -/
theorem exec_rdall_cases (hr : ReaderReady s.readerSide) :
    (∃ bs r, streamBits bs = s.readerSide.rem ∧ r.rem = [] ∧
      exec .rdall s = .next ((s.setReader r).answerReader { status := .ok, rdata := 0, rbytes := bs })) ∨
    (∃ r, s.readerSide.rem.length % 8 ≠ 0 ∧ r.rem = s.readerSide.rem.drop (8 * (s.readerSide.rem.length / 8)) ∧
      exec .rdall s = .next ((s.setReader r).answerReader { status := .eos, rdata := 0, rbytes := [] })) := by
  have hx : exec .rdall s = finishReader (fun _ => 0) (fun bs => bs) s (readAll s.readerSide) := dataRead_bound _ _ _ hr.bound
  rw [hx]
  obtain ⟨bs, r, ⟨-, hnil, -, hbits⟩, h⟩ | ⟨r, ⟨-, hodd, hrem, -⟩, h⟩ :=
    finishReader_of_ends (fun _ => 0) (fun bs => bs) s (readAll_spec hr)
  · exact .inl ⟨bs, r, hbits.symm, hnil, h⟩
  · exact .inr ⟨r, hodd, hrem, h⟩

theorem exec_rdall_of_whole (hr : ReaderReady s.readerSide) (hwhole : s.readerSide.rem.length % 8 = 0) :
    ∃ r bs, exec .rdall s = .next ((s.setReader r).answerReader { status := .ok, rdata := 0, rbytes := bs }) ∧
      streamBits bs = s.readerSide.rem ∧ r.rem = [] := by
  obtain ⟨bs, r, hbits, hnil, hx⟩ | ⟨r, hodd, -, -⟩ := exec_rdall_cases hr
  · exact ⟨r, bs, hx, hbits, hnil⟩
  · exact absurd hwhole hodd

theorem exec_rdall_of_odd (hr : ReaderReady s.readerSide) (hodd : s.readerSide.rem.length % 8 ≠ 0) :
    ∃ r, exec .rdall s = .next ((s.setReader r).answerReader { status := .eos, rdata := 0, rbytes := [] }) ∧
      r.rem = s.readerSide.rem.drop (8 * (s.readerSide.rem.length / 8)) := by
  obtain ⟨bs, r, hbits, -, -⟩ | ⟨r, -, hrem, hx⟩ := exec_rdall_cases hr
  · rw [← hbits, streamBits_length] at hodd
    omega
  · exact ⟨r, hx, hrem⟩

/-- `RBIND` on a source at its start leaves a ready reader with every bit of the source to come (R71, R113). -/
theorem exec_rbind_of_start (hl : s.br.life = .unbound) (hpos : s.src.pos = 0) (hrel : s.src.released = false) :
    ∃ r, exec .rbind s = .next ((s.setReader r).answerReader { status := .ok, rdata := 0, rbytes := [] }) ∧
      ReaderReady r ∧ r.rem = streamBits s.src.bytes := by
  have hx : exec .rbind s = finishReader (fun _ => 0) (fun _ => []) s (bindReader s.readerSide) := if_pos hl
  rw [hx]
  obtain ⟨-, r, ⟨hready, hrem⟩, h⟩ | ⟨r, hno, -⟩ :=
    finishReader_of_ends (fun _ => 0) (fun _ => []) s (bindReader_spec (r := s.readerSide) (by simp [hpos]) hrel)
  · exact ⟨r, h, hready, by simpa [hpos] using hrem⟩
  · exact hno.elim

end

/-- Settles O29: `RDALL` takes the whole bytes to come; after `RBIND` those are the bits of the source, which
determine its bytes. -/
theorem readAllFollowsTheRemainingBits : Obligations.ReadAllFollowsTheRemainingBits := by
  unfold Obligations.ReadAllFollowsTheRemainingBits
  constructor
  · rintro s hinv hbound q rfl
    exact ⟨exec_rdall_of_whole ⟨hinv, hbound⟩, exec_rdall_of_odd ⟨hinv, hbound⟩⟩
  · intro s hl hpos hrel
    obtain ⟨r, hbind, hready, hrem⟩ := exec_rbind_of_start hl hpos hrel
    obtain ⟨r', bs, hall, hbits, -⟩ :=
      exec_rdall_of_whole (s := (s.setReader r).answerReader { status := .ok, rdata := 0, rbytes := [] }) hready
        (by simp [hrem])
    obtain rfl : bs = s.src.bytes := streamBits_inj (hbits.trans hrem)
    exact ⟨_, _, hbind, hall, by simp⟩

end Sys2Proof.Machine

/-! ### Widths 1 and 32 are the dedicated commands (R121) -/

namespace Sys2Proof.Machine

/-- One bit on the result bus, whether it comes from `RDBIT` or from the 32-bit quantity of `RDBITS 1`. -/
theorem onBus_appendBit_zero (b : Bool) : onBus (appendBit (0 : BitVec 32) b) = onBus (BitVec.ofBool b) := by
  cases b <;> decide

theorem exec_rdbits_one (s : State) : exec (.rdbits 1) s = exec .rdbit s := by
  have hbody : readWidth 1 = fun r => (readBit r).map (appendBit 0) := rfl
  have hbus : (fun b => onBus (appendBit (0 : BitVec 32) b)) = fun b => onBus (BitVec.ofBool b) :=
    funext onBus_appendBit_zero
  calc exec (.rdbits 1) s = dataRead (readWidth 1) onBus (fun _ => []) s := rfl
    _ = dataRead readBit (fun b => onBus (appendBit (0 : BitVec 32) b)) (fun _ => []) s := by rw [hbody, dataRead_map]
    _ = exec .rdbit s := by rw [hbus]; rfl

theorem writeWidth_one (d : Data) : writeWidth 1 d = writeBit (d.getLsbD 0) := by
  funext w
  show writeBits d 1 w = writeBit (d.getLsbD 0) w
  rw [writeBits]
  cases writeBit (d.getLsbD 0) w <;> rfl

theorem exec_wrbits_one (s : State) : exec (.wrbits 1) s = exec .wrbit s := by
  show dataWrite (writeWidth 1 s.bwWdata) s = dataWrite (writeBit (s.bwWdata.getLsbD 0)) s
  rw [writeWidth_one]

/-- A write reads its operand through its body alone, so other operand lines stay as they are. -/
theorem dataWrite_setOperand (body : WriterSide → Except Fault WriterSide) (s : State) (d : Data) :
    dataWrite body { s with bwWdata := d } = mapNext (fun t => { t with bwWdata := d }) (dataWrite body s) := by
  by_cases hl : s.bw.life = .bound
  · rw [dataWrite, dataWrite, if_pos hl, if_pos hl]
    show finishWriter _ (body s.writerSide) = _
    cases body s.writerSide <;> rfl
  · rw [dataWrite_refused body hl]
    exact dataWrite_refused body (s := { s with bwWdata := d }) hl

/-- A composite write depends on the bytes it writes alone. -/
theorem writeBytes_congr {m : Nat} {v u : BitVec m} {k : Nat} (h : ∀ j < k, byteOf v j = byteOf u j) :
    writeBytes v k = writeBytes u k := by
  induction k with
  | zero => rfl
  | succ k ih =>
    funext w
    rw [writeBytes, writeBytes, h k k.lt_succ_self, ih fun j hj => h j (Nat.lt_succ_of_lt hj)]

/-- Byte `j` of an operand is part of every low slice that reaches over it. -/
theorem byteOf_congr {m n j : Nat} {v u : BitVec m} (h : v.extractLsb' 0 n = u.extractLsb' 0 n) (hj : 8 * (j + 1) ≤ n) :
    byteOf v j = byteOf u j := by
  have hbyte : ∀ x : BitVec m, byteOf x j = (x.extractLsb' 0 n).extractLsb' (8 * j) 8 := by
    intro x
    apply BitVec.eq_of_getLsbD_eq
    intro i hi
    have hin : 8 * j + i < n := by omega
    simp [byteOf, hi, hin]
  rw [hbyte, hbyte, h]

/-- Settles O42: the bodies of the paired commands are equal, and the paired writes reach bit 0 and bytes 0 to 3 of the operand. -/
theorem boundaryWidthsMatchTheDedicatedPaths : Obligations.BoundaryWidthsMatchTheDedicatedPaths := by
  unfold Obligations.BoundaryWidthsMatchTheDedicatedPaths
  refine fun s => ⟨exec_rdbits_one s, rfl, exec_wrbits_one s, rfl, fun d => ⟨fun hbit => ?_, fun hlow => ?_⟩⟩
  · rw [exec_wrbits_one]
    show dataWrite (writeBit (d.getLsbD 0)) { s with bwWdata := d } = _
    rw [hbit]
    exact dataWrite_setOperand _ s d
  · show dataWrite (writeBytes d 4) { s with bwWdata := d } = _
    rw [writeBytes_congr fun j hj => byteOf_congr hlow (by omega)]
    exact dataWrite_setOperand _ s d

end Sys2Proof.Machine

/-! ### The writes and the pad on the bits laid down (R117, R118) -/

namespace Sys2Proof.Machine

/-- The low bits of a quantity that has no others determine it. -/
theorem eq_of_bitsLow_eq {m k : Nat} {v u : BitVec m} (h : bitsLow v k = bitsLow u k) (hv : v.toNat < 2 ^ k)
    (hu : u.toNat < 2 ^ k) : v = u := by
  have hval := congrArg val h
  rw [val_bitsLow, val_bitsLow, Nat.mod_eq_of_lt hv, Nat.mod_eq_of_lt hu] at hval
  exact BitVec.eq_of_toNat_eq hval

/-- The accumulator and the sink are a function of the bits laid down (R117). -/
theorem written_inj {w w' : WriterSide} (h : WriterInv w) (h' : WriterInv w') (heq : w.written = w'.written) :
    w.bw.buf = w'.bw.buf ∧ w.bw.n = w'.bw.n ∧ w.snk.bytes = w'.snk.bytes := by
  obtain ⟨hn, hbytes⟩ := written_position h
  obtain ⟨hn', hbytes'⟩ := written_position h'
  rw [heq] at hn hbytes
  obtain ⟨-, hbuf, -, -⟩ := h
  obtain ⟨-, hbuf', -, -⟩ := h'
  have hcount : w.bw.n = w'.bw.n := BitVec.eq_of_toNat_eq (hn.trans hn'.symm)
  obtain ⟨hsent, hpending⟩ : streamBits w.snk.bytes = streamBits w'.snk.bytes ∧
      bitsLow w.bw.buf w.bw.n.toNat = bitsLow w'.bw.buf w'.bw.n.toNat :=
    List.append_inj heq (by rw [streamBits_length, streamBits_length, hbytes, hbytes'])
  rw [hcount] at hbuf hpending
  exact ⟨eq_of_bitsLow_eq hpending hbuf hbuf', hcount, streamBits_inj hsent⟩

/-- With nothing pending the sink holds all the bits laid down. -/
theorem written_of_empty {w : WriterSide} (h : w.bw.n = 0) : w.written = streamBits w.snk.bytes := by
  rw [WriterSide.written, h]; exact List.append_nil _

theorem bindWriter_written {w : WriterSide} (h : w.snk.bytes = []) : (bindWriter w).written = [] := by
  simp [WriterSide.written, bindWriter, h]

theorem exec_wbind_unbound {s : State} (hl : s.bw.life = .unbound) :
    exec .wbind s = .next ((s.setWriter (bindWriter s.writerSide)).answerWriter { status := .ok, rdata := 0 }) :=
  if_pos hl

/-- A write past its prologue succeeds and lays down the low bits of its operand (R117). -/
theorem exec_write_ready {i : Instr} {k : Nat} {s : State} (hw : WriterReady s.writerSide) (hk : writeWidthOf i = some k)
    (hb : badWidth i = false) :
    ∃ w, exec i s = .next ((s.setWriter w).answerWriter { status := .ok, rdata := 0 }) ∧ WriterReady w ∧
      w.written = s.writerSide.written ++ bitsLow s.bwWdata k := by
  obtain ⟨body, hbody⟩ := Option.isSome_iff_exists.mp ((writeBody_isSome i).trans (by rw [hk]; rfl))
  obtain ⟨w, hok, hready, hwritten, -⟩ := writeBody_spec hbody hk s.bwWdata hw
  exact ⟨w, (exec_write hbody hb s).trans (dataWrite_ok hw.2.1 hok), hready, hwritten⟩

/-- Settles O39: the position and the accumulator are read off the bits laid down, and the six writes are one lemma over
the width. -/
theorem writesAppendTheirBits : Obligations.WritesAppendTheirBits := by
  unfold Obligations.WritesAppendTheirBits
  refine ⟨fun s hl hempty => ⟨_, exec_wbind_unbound hl, bindWriter_written hempty⟩, fun w => written_position,
    fun w w' => written_inj, fun s i k hinv hbound hopen hk hb => ?_⟩
  obtain ⟨w, hx, ⟨-, hbound', hopen'⟩, hwritten⟩ := exec_write_ready ⟨hinv, hbound, hopen⟩ hk hb
  exact ⟨w, hx, hwritten, hbound', hopen'⟩

/-- `WCLOSE` from a ready writer: the pad is laid down, nothing is pending, and the writer and its sink are closed (R118). -/
theorem exec_wclose_ready {s : State} (hw : WriterReady s.writerSide) :
    ∃ w, exec .wclose s = .next ((s.setWriter w).answerWriter { status := .ok, rdata := 0 }) ∧
      w.written = s.writerSide.written ++ padOf s.writerSide.written.length ∧ w.bw.n = 0 ∧
      w.bw.life = .closed ∧ w.snk.closed = true := by
  obtain ⟨w, hok, -, hn, hwritten, -, -⟩ := flushBody_spec hw
  refine ⟨{ bw := { w.bw with life := .closed }, snk := w.snk.close }, ?_, hwritten, hn, rfl, rfl⟩
  have hbound : s.bw.life = .bound := hw.2.1
  simp [exec, execWclose, hbound, closeWriter, hok, finishWriter, returnWriter]

/-- Settles O40: the flush lays down the pad, after which the sink holds every bit; the close is the flush and then the closing. -/
theorem flushAndCloseAppendThePad : Obligations.FlushAndCloseAppendThePad := by
  unfold Obligations.FlushAndCloseAppendThePad
  rintro s hinv hbound hopen q rfl q' rfl
  have hw : WriterReady s.writerSide := ⟨hinv, hbound, hopen⟩
  constructor
  · obtain ⟨w, hok, ⟨-, hbound', hopen'⟩, hn, hwritten, -, -⟩ := flushBody_spec hw
    exact ⟨w, dataWrite_ok hbound hok, hwritten, hn, (written_of_empty hn).symm.trans hwritten, hbound', hopen'⟩
  · obtain ⟨w, hx, hwritten, hn, hclosed, hsink⟩ := exec_wclose_ready hw
    exact ⟨w, hx, hwritten, hn, (written_of_empty hn).symm.trans hwritten, hclosed, hsink⟩

end Sys2Proof.Machine

/-! ### Runs of commands on one unit (R119) -/

namespace Sys2Proof

theorem decode_cmdWord_reader (op : BitVec 4) (a : BitVec 8) :
    decode (cmdWord 1 op a) = if op = 6 then .ok (.rdbits a.toNat) else decodeFixed (readerFixed op) a := by
  simp [decode]

theorem decode_cmdWord_writer (op : BitVec 4) (a : BitVec 8) :
    decode (cmdWord 2 op a) = if op = 6 then .ok (.wrbits a.toNat) else decodeFixed (writerFixed op) a := by
  simp [decode]

/-- The word of a well-formed command decodes to that command (R52, R57). -/
theorem decode_encode {i : Instr} (h : i.WellFormed) : decode (encode i) = .ok i := by
  cases i
  case rdbits r =>
    have hr : r < 256 := of_decide_eq_true h
    rw [encode, decode_cmdWord_reader, if_pos rfl, BitVec.toNat_ofNat, Nat.mod_eq_of_lt hr]
  case wrbits r =>
    have hr : r < 256 := of_decide_eq_true h
    rw [encode, decode_cmdWord_writer, if_pos rfl, BitVec.toNat_ofNat, Nat.mod_eq_of_lt hr]
  all_goals rfl

end Sys2Proof

namespace Sys2Proof.Machine

/-- A well-formed command on its own channel runs with its operand on the lines (R50). -/
theorem handleInput_commandInput {i : Instr} (h : i.WellFormed) (d : Data) (s : State) :
    handleInput (commandInput i d) s = exec i (s.setWdata i.port d) := by
  have hrun := runCommand_some (commandOn_some.mpr ⟨decode_encode h, rfl⟩) d s
  rw [← hrun, commandInput]
  cases i.port <;> rfl

theorem runsTo_nil (s : State) : RunsTo s [] { s with inputs := [] } := rfl

theorem runsTo_command {i : Instr} {d : Data} {s u t : State} {l : List Input} (hwf : i.WellFormed)
    (hx : exec i (s.setWdata i.port d) = .next u) (hl : RunsTo u l t) : RunsTo s (commandInput i d :: l) t :=
  runsTo_cons.mpr ⟨u, (handleInput_commandInput hwf d s).trans hx, hl⟩

/-- Two runs one after the other are one run. -/
theorem runsTo_append {l l' : List Input} {s u t : State} (h : RunsTo s l u) (h' : RunsTo u l' t) : RunsTo s (l ++ l') t := by
  induction l generalizing s with
  | nil => cases h; exact h'
  | cons e l ih =>
    obtain ⟨v, hv, hrun⟩ := runsTo_cons.mp h
    exact runsTo_cons.mpr ⟨v, hv, ih hrun⟩

/-! ### Streams of fields (R119) -/

section
variable {f : Field}

theorem Field.widthLegal_of_legal {r : Nat} {v : Data} (h : (Field.bits r v).legal = true) : widthLegal r :=
  of_decide_eq_true h

/-- A legal field is read by a command of its width (R56, R57). -/
theorem Field.reader_spec (h : f.legal = true) :
    f.reader.WellFormed ∧ f.reader.port = .reader ∧ readWidthOf f.reader = some f.width ∧ badWidth f.reader = false := by
  cases f
  case bits r v =>
    have hr := widthLegal_of_legal h
    exact ⟨decide_eq_true (lt_of_le_of_lt hr.2 (by decide)), rfl, rfl, (badWidth_rdbits r).mpr hr⟩
  all_goals exact ⟨rfl, rfl, rfl, rfl⟩

/-- A legal field is written by a command of its width (R56, R57). -/
theorem Field.writer_spec (h : f.legal = true) :
    f.writer.WellFormed ∧ f.writer.port = .writer ∧ writeWidthOf f.writer = some f.width ∧ badWidth f.writer = false := by
  cases f
  case bits r v =>
    have hr := widthLegal_of_legal h
    exact ⟨decide_eq_true (lt_of_le_of_lt hr.2 (by decide)), rfl, rfl, (badWidth_wrbits r).mpr hr⟩
  all_goals exact ⟨rfl, rfl, rfl, rfl⟩

theorem Field.bitsOf_length (f : Field) : f.bitsOf.length = f.width := bitsLow_length _ _

/-- The value of a field's bits is its pattern, zero-extended (R54, R119). -/
theorem Field.val_bitsOf (f : Field) : val f.bitsOf = f.operand.toNat % 2 ^ f.width := val_bitsLow _ _

end

theorem flatMap_bitsOf_length (fs : List Field) : (fs.flatMap Field.bitsOf).length = (fs.map Field.width).sum := by
  simp [List.length_flatMap, Field.bitsOf_length]

/-- The slices of a stream of fields at the fields' own widths are the bits of the fields. -/
theorem slices_flatMap_bitsOf (fs : List Field) (q : List Bool) :
    slices (fs.map Field.width) (fs.flatMap Field.bitsOf ++ q) = fs.map Field.bitsOf := by
  induction fs with
  | nil => rfl
  | cons f fs ih =>
    have hlen := f.bitsOf_length
    simp only [List.map_cons, List.flatMap_cons, List.append_assoc, slices]
    rw [List.take_left' hlen, List.drop_left' hlen, ih]

/-- The answer of a write. -/
def writeAnswer : WriterResponse := { status := .ok, rdata := 0 }

/-- The answer of a read that gives the bits `q`. -/
def readAnswer (q : List Bool) : ReaderResponse := { status := .ok, rdata := BitVec.ofNat 64 (val q), rbytes := [] }

/-- Writes from a ready writer all succeed and lay down the fields in order. -/
theorem runsTo_writes {fs : List Field} (hfs : ∀ f ∈ fs, f.legal = true) {s : State} (hs : WriterReady s.writerSide) :
    ∃ t, RunsTo s (fs.map fun f => commandInput f.writer f.operand) t ∧ WriterReady t.writerSide ∧
      t.writerSide.written = s.writerSide.written ++ fs.flatMap Field.bitsOf ∧
      t.bwRsp = s.bwRsp ++ List.replicate fs.length writeAnswer := by
  induction fs generalizing s with
  | nil => exact ⟨_, runsTo_nil s, hs, (List.append_nil _).symm, (List.append_nil _).symm⟩
  | cons f fs ih =>
    obtain ⟨hf, hfs⟩ := List.forall_mem_cons.mp hfs
    obtain ⟨hwf, hport, hk, hb⟩ := Field.writer_spec hf
    obtain ⟨w, hx, hready, hwritten⟩ := exec_write_ready (s := s.setWdata .writer f.operand) hs hk hb
    obtain ⟨t, hrun, ht, hbits, hrsp⟩ :=
      ih hfs (s := ((s.setWdata .writer f.operand).setWriter w).answerWriter writeAnswer) hready
    refine ⟨t, runsTo_command hwf (by rw [hport]; exact hx) hrun, ht, ?_, ?_⟩
    · rw [hbits]
      show w.written ++ _ = _
      rw [hwritten, List.flatMap_cons, ← List.append_assoc]
      rfl
    · simp [hrsp, List.replicate_succ]

/-- Reads of a ready reader with enough bits to come all succeed and give the slices in order. -/
theorem runsTo_reads {gs : List Field} (hgs : ∀ g ∈ gs, g.legal = true) {s : State} (hs : ReaderReady s.readerSide)
    (hlen : (gs.map Field.width).sum ≤ s.readerSide.rem.length) :
    ∃ t, RunsTo s (gs.map fun g => commandInput g.reader 0) t ∧
      t.readerSide.rem = s.readerSide.rem.drop (gs.map Field.width).sum ∧
      t.brRsp = s.brRsp ++ (slices (gs.map Field.width) s.readerSide.rem).map readAnswer := by
  induction gs generalizing s with
  | nil => exact ⟨_, runsTo_nil s, rfl, (List.append_nil _).symm⟩
  | cons g gs ih =>
    obtain ⟨hg, hgs⟩ := List.forall_mem_cons.mp hgs
    obtain ⟨hwf, hport, hk, hb⟩ := Field.reader_spec hg
    rw [List.map_cons, List.sum_cons] at hlen
    obtain ⟨r, hready, ⟨-, hrem, hx⟩ | ⟨hshort, -, -⟩⟩ := exec_read_cases (s := s.setWdata .reader 0) hs hk hb
    · rw [State.setWdata_reader_readerSide] at hrem
      obtain ⟨t, hrun, hleft, hrsp⟩ :=
        ih hgs (s := ((s.setWdata .reader 0).setReader r).answerReader (readAnswer (s.readerSide.rem.take g.width))) hready
          (by simp only [State.answerReader_readerSide, State.setReader_readerSide, hrem, List.length_drop]; omega)
      refine ⟨t, runsTo_command hwf (by rw [hport]; exact hx) hrun, ?_, ?_⟩
      · simp [hleft, hrem]
      · simp [hrsp, hrem, slices]
    · rw [State.setWdata_reader_readerSide] at hshort
      omega

/-- `WBIND` with an open sink leaves a ready writer (R90). -/
theorem bindWriter_ready {w : WriterSide} (h : w.snk.closed = false) : WriterReady (bindWriter w) := by
  simp [WriterReady, WriterInv, bindWriter, h]

/-- `WBIND`, the writes and `WCLOSE` on an empty sink leave the fields and the pad in a closed sink (R119). -/
theorem runsTo_writeInputs {fs : List Field} (hfs : ∀ f ∈ fs, f.legal = true) {s : State} (hl : s.bw.life = .unbound)
    (hsink : s.snk = { bytes := [], closed := false }) :
    ∃ t, RunsTo s (writeInputs fs) t ∧
      streamBits t.snk.bytes = fs.flatMap Field.bitsOf ++ padOf (fs.map Field.width).sum ∧
      t.snk.closed = true ∧ t.bw.life = .closed ∧ t.bwRsp = s.bwRsp ++ List.replicate (fs.length + 2) writeAnswer := by
  have hopen : s.writerSide.snk.closed = false := by simp [hsink]
  have hempty : (bindWriter s.writerSide).written = [] := bindWriter_written (by simp [hsink])
  obtain ⟨u, hwrites, hu, hbits, hrsp⟩ := runsTo_writes hfs
    (s := ((s.setWdata .writer 0).setWriter (bindWriter s.writerSide)).answerWriter writeAnswer)
    (bindWriter_ready hopen)
  obtain ⟨w, hclose, hwritten, hn, hlife, hclosed⟩ := exec_wclose_ready (s := u.setWdata .writer 0) hu
  have hbind : exec .wbind (s.setWdata .writer 0) = _ := exec_wbind_unbound hl
  refine ⟨_, runsTo_command rfl hbind (runsTo_append hwrites (runsTo_command rfl hclose (runsTo_nil _))), ?_,
    hclosed, hlife, ?_⟩
  · show streamBits w.snk.bytes = _
    rw [← written_of_empty hn, hwritten]
    simp [hbits, hempty, ← flatMap_bitsOf_length]
  · have hcount : List.replicate (fs.length + 2) writeAnswer =
        writeAnswer :: (List.replicate fs.length writeAnswer ++ [writeAnswer]) := by
      rw [List.replicate_succ, List.replicate_succ']
    show u.bwRsp ++ [writeAnswer] = _
    rw [hrsp, hcount]
    simp

/-- `RBIND` and then legal reads of no more bits than the source has give the slices of the source's bits (R119). -/
theorem runsTo_readInputs {gs : List Field} (hgs : ∀ g ∈ gs, g.legal = true) {s : State} {bs : List Byte}
    (hl : s.br.life = .unbound) (hsrc : s.src = { bytes := bs, pos := 0, released := false })
    (hlen : (gs.map Field.width).sum ≤ 8 * bs.length) :
    ∃ t, RunsTo s (readInputs gs) t ∧ t.readerSide.rem = (streamBits bs).drop (gs.map Field.width).sum ∧
      t.brRsp = s.brRsp ++ readAnswer [] :: (slices (gs.map Field.width) (streamBits bs)).map readAnswer := by
  obtain ⟨r, hbind, hready, hrem⟩ := exec_rbind_of_start (s := s.setWdata .reader 0) hl (by simp [hsrc]) (by simp [hsrc])
  rw [State.setWdata_reader_src, hsrc] at hrem
  obtain ⟨t, hrun, hleft, hrsp⟩ := runsTo_reads hgs
    (s := ((s.setWdata .reader 0).setReader r).answerReader (readAnswer [])) hready (by simpa [hrem] using hlen)
  exact ⟨t, runsTo_command rfl hbind hrun, by simp [hleft, hrem], by simp [hrsp, hrem]⟩

theorem writeInputs_length (fs : List Field) : (writeInputs fs).length = fs.length + 2 := by
  simp [writeInputs]

theorem readInputs_length (fs : List Field) : (readInputs fs).length = fs.length + 1 := by
  simp [readInputs]

/-- Settles O46: the writes lay down the fields and the close the pad; reads that fit give the slices of the stream, which at the
fields' own widths are the fields. -/
theorem writtenStreamsReadBack : Obligations.WrittenStreamsReadBack := by
  unfold Obligations.WrittenStreamsReadBack
  rintro fs hfs k rfl
  refine ⟨fun s hl hsink => ?_, fun s bs hl hsrc hbits => ⟨?_, fun gs hgs hlen => ?_⟩⟩
  · obtain ⟨t, hrun, ht⟩ := runsTo_writeInputs hfs hl hsink
    rw [RunsTo, writeInputs_length] at hrun
    exact ⟨t, hrun, ht⟩
  · have hlen : (fs.map Field.width).sum ≤ 8 * bs.length := by
      rw [← streamBits_length, hbits, List.length_append, flatMap_bitsOf_length]
      exact Nat.le_add_right _ _
    obtain ⟨t, hrun, hleft, hrsp⟩ := runsTo_readInputs hfs hl hsrc hlen
    rw [RunsTo, readInputs_length] at hrun
    refine ⟨t, hrun, ?_, ?_⟩
    · rw [hrsp, hbits, slices_flatMap_bitsOf]
      simp [readAnswer, Field.val_bitsOf, Function.comp_def]
    · rw [hleft, hbits, List.drop_left' (flatMap_bitsOf_length fs)]
  · obtain ⟨t, hrun, -, hrsp⟩ := runsTo_readInputs hgs hl hsrc hlen
    rw [RunsTo, readInputs_length] at hrun
    exact ⟨t, hrun, hrsp⟩

end Sys2Proof.Machine

/-! ### The status of a response (R132 to R136) -/

namespace Sys2Proof.Machine

@[simp] theorem lastStatus_answerReader (s : State) (q : ReaderResponse) :
    lastStatus .reader (s.answerReader q) = some q.status := by
  simp [lastStatus]

@[simp] theorem lastStatus_answerWriter (s : State) (q : WriterResponse) :
    lastStatus .writer (s.answerWriter q) = some q.status := by
  simp [lastStatus]

/-- Taking an error answers with its status on the unit's own channel (R137). -/
theorem lastStatus_of_raiseOn {p : Port} {st : Status} {s t : State} (h : raiseOn p st s = .next t) :
    lastStatus p t = some st := by
  cases p <;> cases h
  · exact lastStatus_answerReader s _
  · exact lastStatus_answerWriter s _

/-- A word on a unit's channel is handled by that unit (R51). -/
theorem handleInput_command (p : Port) (w : Cmd) (d : Data) (s : State) :
    handleInput (Input.command p w d) s = runCommand p w d s := by
  cases p <;> rfl

/-- The operand lines have no part in the lifecycle. -/
@[simp] theorem lifeOf_setWdata (p p' : Port) (d : Data) (s : State) : lifeOf p (s.setWdata p' d) = lifeOf p s := by
  cases p <;> cases p' <;> rfl

/-- Settles O6: a word that is no command of the unit is answered by `raiseOn`, before any operand is put on the lines. -/
theorem illegalWordIsAnsweredAndChangesNothing : Obligations.IllegalWordIsAnsweredAndChangesNothing := by
  unfold Obligations.IllegalWordIsAnsweredAndChangesNothing
  exact fun s w d rest =>
    ⟨fun hno hin => (step_cons hin).trans (runCommand_none (commandOn_none.mpr hno) d _),
      fun hno hin => (step_cons hin).trans (runCommand_none (commandOn_none.mpr hno) d _)⟩

/-- Settles O14: a width outside 1 to 32 is a bad one for either command. -/
theorem widthOutsideOneTo32IsInvalid : Obligations.WidthOutsideOneTo32IsInvalid := by
  unfold Obligations.WidthOutsideOneTo32IsInvalid
  intro s r hr
  have hread : badWidth (.rdbits r) = true := by simpa [badWidth] using hr
  have hwrite : badWidth (.wrbits r) = true := by simpa [badWidth] using hr
  exact ⟨exec_invalid hread s, exec_invalid hwrite s⟩

/-- Settles O15: the answer is `raiseOn` with `ST_STATE`, whichever unit the command belongs to. -/
theorem wrongLifecycleIsAnsweredState : Obligations.WrongLifecycleIsAnsweredState := by
  unfold Obligations.WrongLifecycleIsAnsweredState
  intro i s hw hs
  rw [exec_refused hw hs]
  cases i.port <;> rfl

/-! ### The order of the causes (R136) -/

section
variable {i : Instr} {s t : State} {r : ReaderSide} {q : ReaderResponse} {w : WriterSide} {p : WriterResponse}

/-- A command with the body of a data read asks for a fixed number of bits (R57). -/
theorem readWidthOf_of_readBody {body : ReaderSide → ReadOut Data} (hb : readBody i = some body) : ∃ k, readWidthOf i = some k :=
  Option.isSome_iff_exists.mp ((readBody_isSome i).symm.trans (Option.isSome_of_eq_some hb))

/-- Only a data read raises `EOS` (R131). -/
theorem ReaderDoes.isRead_of_eos (hd : ReaderDoes s i r q) (hq : q.status = .eos) :
    (readWidthOf i).isSome = true ∨ i = .rdall := by
  cases hd with
  | readEos hb =>
    obtain ⟨k, hk⟩ := readWidthOf_of_readBody hb
    exact .inl (Option.isSome_of_eq_some hk)
  | allEos => exact .inr rfl
  | invalid | wrongState | bind | read | all | stat | close | reclose => cases hq

/-- A reader command past the tests of its width and of the lifecycle answers `ST_OK` or `ST_EOS` (R79). -/
theorem ReaderDoes.status_of_allowed (hd : ReaderDoes s i r q) (hw : badWidth i = false)
    (hs : stateRefused i s.br.life = false) : q.status = .ok ∨ q.status = .eos := by
  cases hd with
  | invalid hbad => cases hbad.symm.trans hw
  | wrongState _ href => cases href.symm.trans hs
  | readEos | allEos => exact .inr rfl
  | bind | read | all | stat | close | reclose => exact .inl rfl

/-- A writer command past the tests of its width and of the lifecycle answers `ST_OK` (R98). -/
theorem WriterDoes.status_of_allowed (hd : WriterDoes s i w p) (hw : badWidth i = false)
    (hs : stateRefused i s.bw.life = false) : p.status = .ok := by
  cases hd with
  | invalid hbad => cases hbad.symm.trans hw
  | wrongState _ href => cases href.symm.trans hs
  | bind | write | flush | stat | close | reclose => rfl

theorem WriterDoes.status_ne_eos (hd : WriterDoes s i w p) : p.status ≠ .eos := by
  cases hd <;> exact Status.noConfusion

/-- The status that R136 leaves a command of the unit, in a lifecycle state of it: the causes in their order. -/
def StatusRuled (i : Instr) (l : Life) (st : Status) : Prop :=
  (badWidth i = true → st = .invalidArg) ∧
  (badWidth i = false → stateRefused i l = true → st = .state) ∧
  (badWidth i = false → stateRefused i l = false →
    st = .ok ∨ (st = .eos ∧ ((readWidthOf i).isSome = true ∨ i = .rdall)))

/-- A command past both tests answers `ST_OK`, or `ST_EOS` if it is a data read. -/
theorem exec_status_of_allowed (hw : badWidth i = false) (hs : stateRefused i (lifeOf i.port s) = false)
    (h : exec i s = .next t) :
    ∃ st, lastStatus i.port t = some st ∧ (st = .ok ∨ (st = .eos ∧ ((readWidthOf i).isSome = true ∨ i = .rdall))) := by
  cases hp : i.port <;> rw [hp] at hs
  case reader =>
    obtain ⟨r, q, rfl, hd⟩ := reader_next hp h
    exact ⟨q.status, lastStatus_answerReader _ q, (hd.status_of_allowed hw hs).imp_right fun hq => ⟨hq, hd.isRead_of_eos hq⟩⟩
  case writer =>
    obtain ⟨w, p, rfl, hd⟩ := writer_next hp h
    exact ⟨p.status, lastStatus_answerWriter _ p, .inl (hd.status_of_allowed hw hs)⟩

/-- Every command that answers does so with the status R136 gives it. -/
theorem exec_status (h : exec i s = .next t) :
    ∃ st, lastStatus i.port t = some st ∧ StatusRuled i (lifeOf i.port s) st := by
  unfold StatusRuled
  cases hw : badWidth i
  · cases hs : stateRefused i (lifeOf i.port s)
    · obtain ⟨st, hst, hcases⟩ := exec_status_of_allowed hw hs h
      exact ⟨st, hst, by simp, by simp, fun _ _ => hcases⟩
    · rw [exec_refused hw hs] at h
      exact ⟨.state, lastStatus_of_raiseOn h, by simp⟩
  · rw [exec_invalid hw] at h
    exact ⟨.invalidArg, lastStatus_of_raiseOn h, by simp⟩

end

/-- Settles O10: a word that is no command of the unit is answered `ST_ILLEGAL`; every other runs, and `exec_status` orders the
rest. -/
theorem statusFollowsThePriority : Obligations.StatusFollowsThePriority := by
  unfold Obligations.StatusFollowsThePriority
  intro s t p w d rest hin hstep
  rw [step_cons hin, handleInput_command] at hstep
  cases hc : commandOn p w with
  | none =>
    rw [runCommand_none hc] at hstep
    exact ⟨.illegal, lastStatus_of_raiseOn hstep, fun _ => rfl, fun i hi hp => absurd hp (commandOn_none.mp hc i hi)⟩
  | some i =>
    obtain ⟨hi, rfl⟩ := commandOn_some.mp hc
    rw [runCommand_some hc] at hstep
    obtain ⟨st, hst, hruled⟩ := exec_status hstep
    rw [lifeOf_setWdata] at hruled
    refine ⟨st, hst, fun hno => absurd rfl (hno i hi), fun j hj _ => ?_⟩
    obtain rfl : i = j := Except.ok.inj (hi.symm.trans hj)
    exact hruled

end Sys2Proof.Machine

/-! ### `ST_EOS` and the remaining bits (R131) -/

namespace Sys2Proof.Machine

section
variable {i j : Instr} {k m : Nat} {s t u : State} {r : ReaderSide} {q : ReaderResponse}

/-- A data read of fixed length answers `ST_EOS` exactly when fewer bits remain than it asks for. -/
theorem exec_read_eos_iff (hr : ReaderReady s.readerSide) (hk : readWidthOf i = some k) (hw : badWidth i = false)
    (h : exec i s = .next t) : lastStatus .reader t = some .eos ↔ s.readerSide.rem.length < k := by
  obtain ⟨r, -, ⟨hlen, -, hx⟩ | ⟨hlen, -, hx⟩⟩ := exec_read_cases hr hk hw <;>
    cases h.symm.trans hx <;> simp [hlen]

/-- `RDALL` answers `ST_EOS` exactly when the bits that remain are no whole bytes. -/
theorem exec_rdall_eos_iff (hr : ReaderReady s.readerSide) (h : exec .rdall s = .next t) :
    lastStatus .reader t = some .eos ↔ s.readerSide.rem.length % 8 ≠ 0 := by
  obtain ⟨bs, r, hbits, -, hx⟩ | ⟨r, hodd, -, hx⟩ := exec_rdall_cases hr <;> cases h.symm.trans hx
  · simp [← hbits]
  · simp [hodd]

/-- No bit remains exactly when none is resident. -/
theorem rem_lt_one_iff {r : ReaderSide} (hr : ReaderReady r) : r.rem.length < 1 ↔ r.br.n = 0 := by
  rw [Nat.lt_one_iff, List.length_eq_zero_iff, rem_nil_iff hr]

/-- Fewer than eight bits remain exactly when none is resident, or some but no byte's worth and no byte is to be had. -/
theorem rem_lt_eight_iff {r : ReaderSide} (hr : ReaderReady r) :
    r.rem.length < 8 ↔
      r.br.n = 0 ∨ (0 < r.br.n.toNat ∧ r.br.n.toNat < 8 ∧ (r.br.eof = true ∨ r.src.pos = r.src.bytes.length)) := by
  obtain ⟨⟨-, hzero, hend, -, -, -, -, hpos, -, -⟩, hl⟩ := hr
  have hzero' : r.br.n.toNat = 0 → r.src.pos = r.src.bytes.length :=
    fun hn => hend hl (hzero hl ((count_eq_zero_iff _).mpr hn))
  have heof : r.br.eof = true ∨ r.src.pos = r.src.bytes.length ↔ r.src.pos = r.src.bytes.length :=
    or_iff_right_of_imp (hend hl)
  rw [rem_length, heof, count_eq_zero_iff]
  omega

/-- What a failed read leaves is no more than there was. -/
theorem leftByFailure_length_le (i : Instr) (l : List Bool) : (leftByFailure i l).length ≤ l.length := by
  have hdrop : (l.drop (8 * (l.length / 8))).length ≤ l.length := by simp
  unfold leftByFailure
  split
  · exact Nat.zero_le _
  · split
    · exact hdrop
    · exact Nat.zero_le _
  · exact hdrop

/-- A data read of fixed length, whether it succeeds or fails, leaves the reader ready and no more bits than there were. -/
theorem exec_read_leaves (hr : ReaderReady s.readerSide) (hk : readWidthOf i = some k) (hw : badWidth i = false)
    (h : exec i s = .next t) : ReaderReady t.readerSide ∧ t.readerSide.rem.length ≤ s.readerSide.rem.length := by
  obtain ⟨r, hready, ⟨-, hrem, hx⟩ | ⟨-, hrem, hx⟩⟩ := exec_read_cases hr hk hw <;> cases h.symm.trans hx
  · exact ⟨hready, by simp [hrem]⟩
  · exact ⟨hready, hrem ▸ leftByFailure_length_le i _⟩

/-- `RDALL` leaves no more bits than there were. -/
theorem exec_rdall_rem_le (hr : ReaderReady s.readerSide) (h : exec .rdall s = .next t) :
    t.readerSide.rem.length ≤ s.readerSide.rem.length := by
  obtain ⟨bs, r, -, hrem, hx⟩ | ⟨r, -, hrem, hx⟩ := exec_rdall_cases hr <;> cases h.symm.trans hx <;> simp [hrem]

/-- `RCLOSE` discards the resident bits and asks the source for none (R81). -/
theorem closeReader_rem_le (r : ReaderSide) : (closeReader r).rem.length ≤ r.rem.length := by
  simp [rem_length, closeReader, Source.release]

/-- No command of a bound reader makes the remaining bits more. -/
theorem reader_rem_le (hp : i.port = .reader) (hr : ReaderReady s.readerSide) (h : exec i s = .next t) :
    t.readerSide.rem.length ≤ s.readerSide.rem.length := by
  obtain ⟨r, q, rfl, hd⟩ := reader_next hp h
  cases hd with
  | invalid | wrongState | stat | reclose => exact le_rfl
  | bind hl => cases hl.symm.trans hr.bound
  | read hb hw | readEos hb hw =>
    obtain ⟨k, hk⟩ := readWidthOf_of_readBody hb
    exact (exec_read_leaves hr hk hw h).2
  | all | allEos => exact exec_rdall_rem_le hr h
  | close => exact closeReader_rem_le s.readerSide

/-- A command that raises `EOS` has set `eof`. -/
theorem ReaderDoes.eof_of_eos (hd : ReaderDoes s i r q) (hinv : ReaderInv s.readerSide) (hq : q.status = .eos) :
    r.br.eof = true := by
  cases hd with
  | readEos hb hw hl hx =>
    obtain ⟨k, hk⟩ := readWidthOf_of_readBody hb
    have hs := readBody_spec hb hk hw ⟨hinv, hl⟩
    rw [hx] at hs
    exact hs.2.2.2
  | allEos hl hx =>
    have hs := readAll_spec ⟨hinv, hl⟩
    rw [hx] at hs
    exact hs.2.2.2
  | invalid | wrongState | bind | read | all | stat | close | reclose => cases hq

/-- After a read that failed, a read as wide or wider fails too: no more bits remain than did. -/
theorem exec_read_eos_again (hr : ReaderReady s.readerSide) (hk : readWidthOf i = some k) (hw : badWidth i = false)
    (h : exec i s = .next t) (heos : lastStatus .reader t = some .eos) (hm : readWidthOf j = some m) (hkm : k ≤ m)
    (hwj : badWidth j = false) (hj : exec j t = .next u) : lastStatus .reader u = some .eos := by
  obtain ⟨hready, hle⟩ := exec_read_leaves hr hk hw h
  have hshort := (exec_read_eos_iff hr hk hw h).mp heos
  exact (exec_read_eos_iff hready hm hwj hj).mpr (by omega)

end

/-- No writer command answers `ST_EOS`. -/
theorem writer_status_ne_eos {i : Instr} {s t : State} (hp : i.port = .writer) (h : exec i s = .next t) :
    lastStatus .writer t ≠ some .eos := by
  obtain ⟨w, p, rfl, hd⟩ := writer_next hp h
  simpa using hd.status_ne_eos

section
variable {i : Instr} {s t : State}

/-- Only a data read answers `ST_EOS`. -/
theorem reader_isRead_of_eos (hp : i.port = .reader) (h : exec i s = .next t) (heos : lastStatus .reader t = some .eos) :
    (readWidthOf i).isSome = true ∨ i = .rdall := by
  obtain ⟨r, q, rfl, hd⟩ := reader_next hp h
  exact hd.isRead_of_eos (by simpa using heos)

/-- After an answer `ST_EOS` the source is known to be exhausted (R12). -/
theorem reader_eof_of_eos (hp : i.port = .reader) (hinv : ReaderInv s.readerSide) (h : exec i s = .next t)
    (heos : lastStatus .reader t = some .eos) : t.br.eof = true := by
  obtain ⟨r, q, rfl, hd⟩ := reader_next hp h
  exact hd.eof_of_eos hinv (by simpa using heos)

end

/-- Settles O32: the clauses on `Rem` are those of each data read; the clauses on the registers say the same of `n`, `eof` and
`pos`; the case of a bit read after a failed byte read is `threeBitsLeft`. -/
theorem endOfStreamExactlyWhenTooFewBitsRemain : Obligations.EndOfStreamExactlyWhenTooFewBitsRemain := by
  unfold Obligations.EndOfStreamExactlyWhenTooFewBitsRemain
  refine ⟨fun i s t => writer_status_ne_eos,
    ⟨threeBitsLeft, _, _, by decide, exec_rdbyte_threeBitsLeft, rfl, rfl, rfl⟩,
    fun i s t hp hinv h => ⟨fun hl hw k hk => exec_read_eos_iff ⟨hinv, hl⟩ hk hw h, ?_, ?_, ?_, ?_, reader_eof_of_eos hp hinv h,
      fun hl => reader_rem_le hp ⟨hinv, hl⟩ h,
      fun hl hw heos j u k m hk hm hkm hwj hj => exec_read_eos_again ⟨hinv, hl⟩ hk hw h heos hm hkm hwj hj⟩⟩
  · rintro hl rfl
    exact exec_rdall_eos_iff ⟨hinv, hl⟩ h
  · rintro hl rfl
    exact (exec_read_eos_iff ⟨hinv, hl⟩ rfl rfl h).trans (rem_lt_one_iff ⟨hinv, hl⟩)
  · rintro hl rfl
    exact (exec_read_eos_iff ⟨hinv, hl⟩ rfl rfl h).trans (rem_lt_eight_iff ⟨hinv, hl⟩)
  · intro hi heos
    have hread := reader_isRead_of_eos hp h heos
    obtain rfl | rfl | rfl := hi <;> simp [readWidthOf] at hread

end Sys2Proof.Machine

/-! ### The command word read backwards, and the words that are no command (R57, R58) -/

namespace Sys2Proof

theorem decodeFixed_ok {row : Option Instr} {a : BitVec 8} {i : Instr} (h : decodeFixed row a = .ok i) :
    row = some i ∧ a = 0 := by
  cases row with
  | none => cases h
  | some j =>
    rw [decodeFixed] at h
    split at h <;> cases h
    exact ⟨rfl, ‹_›⟩

theorem decodeFixed_error {row : Option Instr} {a : BitVec 8} :
    (∃ e, decodeFixed row a = .error e) ↔ row = none ∨ a ≠ 0 := by
  cases row with
  | none => simp [decodeFixed]
  | some i =>
    rw [decodeFixed]
    split <;> rename_i ha
    · exact iff_of_false (fun ⟨_, h⟩ => nomatch h) (by simp [ha])
    · exact iff_of_true ⟨_, rfl⟩ (.inr ha)

/-- Each row of the reader's half of the map holds the command whose word has that `op` (R57). -/
theorem encode_readerFixed :
    ∀ op : BitVec 4, ∀ i ∈ readerFixed op, i.WellFormed ∧ encode i = cmdWord 1 op 0 := by decide

/-- Each row of the writer's half of the map holds the command whose word has that `op` (R57). -/
theorem encode_writerFixed :
    ∀ op : BitVec 4, ∀ i ∈ writerFixed op, i.WellFormed ∧ encode i = cmdWord 2 op 0 := by decide

theorem readerFixed_none : ∀ op : BitVec 4, readerFixed op = none ↔ op.toNat = 6 ∨ 9 < op.toNat := by decide

theorem writerFixed_none : ∀ op : BitVec 4, writerFixed op = none ↔ op.toNat = 6 ∨ 9 < op.toNat := by decide

/-- The five ways of the decoder: by class, and within a class by whether the word carries a width (R57). -/
theorem decode_cases (w : Cmd) :
    (w.cls = 1 ∧ w.op = 6 ∧ decode w = .ok (.rdbits w.arg.toNat)) ∨
    (w.cls = 1 ∧ w.op ≠ 6 ∧ decode w = decodeFixed (readerFixed w.op) w.arg) ∨
    (w.cls = 2 ∧ w.op = 6 ∧ decode w = .ok (.wrbits w.arg.toNat)) ∨
    (w.cls = 2 ∧ w.op ≠ 6 ∧ decode w = decodeFixed (writerFixed w.op) w.arg) ∨
    (w.cls ≠ 1 ∧ w.cls ≠ 2 ∧ decode w = .error .reservedClass) := by
  unfold decode
  by_cases h1 : w.cls = 1
  · by_cases ho : w.op = 6
    · exact .inl ⟨h1, ho, by rw [if_pos h1, if_pos ho]⟩
    · exact .inr (.inl ⟨h1, ho, by rw [if_pos h1, if_neg ho]⟩)
  · by_cases h2 : w.cls = 2
    · by_cases ho : w.op = 6
      · exact .inr (.inr (.inl ⟨h2, ho, by rw [if_neg h1, if_pos h2, if_pos ho]⟩))
      · exact .inr (.inr (.inr (.inl ⟨h2, ho, by rw [if_neg h1, if_pos h2, if_neg ho]⟩)))
    · exact .inr (.inr (.inr (.inr ⟨h1, h2, by rw [if_neg h1, if_neg h2]⟩)))

/-- A word that decodes is the word of its command, and the width it carries fits the field (R57, R59). -/
theorem encode_of_decode {w : Cmd} {i : Instr} (h : decode w = .ok i) : i.WellFormed ∧ encode i = w := by
  have hw := cmdWord_fields w
  have hwidth : w.arg.toNat < 256 := w.arg.isLt
  have harg : BitVec.ofNat 8 w.arg.toNat = w.arg := by rw [BitVec.ofNat_toNat, BitVec.setWidth_eq]
  obtain ⟨hc, ho, hd⟩ | ⟨hc, -, hd⟩ | ⟨hc, ho, hd⟩ | ⟨hc, -, hd⟩ | ⟨-, -, hd⟩ := decode_cases w <;> rw [hd] at h
  · cases h
    exact ⟨decide_eq_true hwidth, by rw [encode, harg, ← hc, ← ho, hw]⟩
  · obtain ⟨hrow, ha⟩ := decodeFixed_ok h
    obtain ⟨hwf, henc⟩ := encode_readerFixed _ i hrow
    exact ⟨hwf, by rw [henc, ← hc, ← ha, hw]⟩
  · cases h
    exact ⟨decide_eq_true hwidth, by rw [encode, harg, ← hc, ← ho, hw]⟩
  · obtain ⟨hrow, ha⟩ := decodeFixed_ok h
    obtain ⟨hwf, henc⟩ := encode_writerFixed _ i hrow
    exact ⟨hwf, by rw [henc, ← hc, ← ha, hw]⟩
  · cases h

/-! The fields of a word as numbers (R52). -/

theorem cls_toNat (w : Cmd) : w.cls.toNat = w.toNat / 4096 := by
  have hw : w.toNat < 65536 := w.isLt
  simp [Cmd.cls, Nat.shiftRight_eq_div_pow]
  omega

theorem op_toNat (w : Cmd) : w.op.toNat = w.toNat / 256 % 16 := by
  simp [Cmd.op, Nat.shiftRight_eq_div_pow]

theorem arg_toNat (w : Cmd) : w.arg.toNat = w.toNat % 256 := by
  simp [Cmd.arg]

/-- A word is rejected for its class, its `op` or its `arg` (R58). -/
theorem decode_error_iff (w : Cmd) : (∃ e, decode w = .error e) ↔
    (w.cls ≠ 1 ∧ w.cls ≠ 2) ∨ 9 < w.op.toNat ∨ (w.op ≠ 6 ∧ w.arg ≠ 0) := by
  have h6 : w.op.toNat = 6 ↔ w.op = 6 := by rw [← BitVec.toNat_inj]; rfl
  have h12 : (1 : BitVec 4) ≠ 2 := by decide
  have h69 : ¬ 9 < (6 : BitVec 4).toNat := by decide
  obtain ⟨hc, ho, hd⟩ | ⟨hc, ho, hd⟩ | ⟨hc, ho, hd⟩ | ⟨hc, ho, hd⟩ | ⟨h1, h2, hd⟩ := decode_cases w <;> rw [hd]
  · rw [hc, ho]; tauto
  · rw [decodeFixed_error, readerFixed_none, h6, hc]; tauto
  · rw [hc, ho]; tauto
  · rw [decodeFixed_error, writerFixed_none, h6, hc]; tauto
  · exact iff_of_true ⟨_, rfl⟩ (.inl ⟨h1, h2⟩)

/-- Settles O1: the fields of a command's word are read back, and its row of the map is found again. -/
theorem decodeOfEncodeIsIdentity : Obligations.DecodeOfEncodeIsIdentity := by
  unfold Obligations.DecodeOfEncodeIsIdentity
  exact fun i => decode_encode

/-- Settles O2: a word is made of its fields, and the row found for them is that of the command's own word. -/
theorem encodeOfDecodeIsIdentity : Obligations.EncodeOfDecodeIsIdentity := by
  unfold Obligations.EncodeOfDecodeIsIdentity
  exact fun w i => encode_of_decode

/-- Settles O4: the three causes of a rejection, each field read as a number. -/
theorem unlistedWordsAreExactlyRejected : Obligations.UnlistedWordsAreExactlyRejected := by
  unfold Obligations.UnlistedWordsAreExactlyRejected
  intro w
  rw [decode_error_iff, Ne, Ne, Ne, Ne, ← BitVec.toNat_inj, ← BitVec.toNat_inj, ← BitVec.toNat_inj, ← BitVec.toNat_inj,
    cls_toNat, op_toNat, arg_toNat]
  rfl

/-- Settles O3: the decoder evaluated on each word of the map (R57, R61). -/
theorem wordsOfTheOpcodeMapDecode : Obligations.WordsOfTheOpcodeMapDecode := by
  unfold Obligations.WordsOfTheOpcodeMapDecode
  decide

end Sys2Proof

/-! ### What every write keeps, on an open sink or a closed one (R24, R33) -/

namespace Sys2Proof.Machine

/-- A bound writer that keeps its invariants, whatever its sink. -/
def WriterHeld (w : WriterSide) : Prop := WriterInv w ∧ w.bw.life = .bound

/-- How a write, or a piece of one, ends in every state: with the frame and the invariants kept, or on a closed sink (R33). -/
def WriteEnds (w : WriterSide) (o : Except Fault WriterSide) : Prop :=
  match o with
  | .ok w' => WriterMoves w w' ∧ (WriterHeld w → WriterHeld w')
  | .error f => f = .sinkClosed ∧ w.snk.closed = true

theorem WriteEnds.refl (w : WriterSide) : WriteEnds w (.ok w) := ⟨WriterMoves.refl w, id⟩

theorem WriteEnds.trans {w w₁ : WriterSide} {o : Except Fault WriterSide} (h : WriteEnds w (.ok w₁)) (k : WriteEnds w₁ o) :
    WriteEnds w o := by
  obtain ⟨hmoves, hheld⟩ := h
  cases o with
  | ok w' => exact ⟨hmoves.trans k.1, k.2 ∘ hheld⟩
  | error f =>
    obtain ⟨-, hclosed, -⟩ := hmoves
    exact ⟨k.1, hclosed.symm.trans k.2⟩

theorem emit_ends (b : Byte) (w : WriterSide) : WriteEnds w (emit b w) := by
  obtain ⟨hc, he⟩ | ⟨-, he⟩ := emit_cases b w
  · rw [he]
    exact ⟨rfl, hc⟩
  · refine he ▸ ⟨emit_moves he, fun ⟨_, hl⟩ => ⟨⟨?_, ?_, ?_, ?_⟩, hl⟩⟩ <;> simp [hl]

/-- A bit that completes no byte does not ask the sink, so it is laid down as on an open one (R91). -/
theorem writeBit_ends (b : Bool) (w : WriterSide) : WriteEnds w (writeBit b w) := by
  by_cases h8 : w.bw.n + 1 = 8
  · have hx : writeBit b w = emit (appendBit w.bw.buf b) w := if_pos h8
    exact hx ▸ emit_ends _ w
  · have hx (k : Sink) : writeBit b { w with snk := k } =
        .ok { bw := { w.bw with buf := appendBit w.bw.buf b, n := w.bw.n + 1 }, snk := k } := if_neg h8
    refine hx w.snk ▸ ⟨WriterMoves.refl w, fun ⟨⟨hn, hbuf, hfree, _⟩, hl⟩ => ?_⟩
    obtain ⟨w', hok, ⟨⟨hn', hbuf', -, -⟩, -, -⟩, -, -⟩ :=
      writeBit_spec (w := { w with snk := { w.snk with closed := false } }) ⟨⟨hn, hbuf, hfree, by simp [hl]⟩, hl, rfl⟩ b
    cases (hx _).symm.trans hok
    exact ⟨⟨hn', hbuf', by simp [hl], by simp [hl]⟩, hl⟩

theorem writeBits_ends {m : Nat} (v : BitVec m) (k : Nat) (w : WriterSide) : WriteEnds w (writeBits v k w) := by
  induction k generalizing w with
  | zero => exact WriteEnds.refl w
  | succ k ih =>
    have h := writeBit_ends (v.getLsbD k) w
    rw [writeBits]
    cases hx : writeBit (v.getLsbD k) w with
    | ok w₁ => exact (hx ▸ h).trans (ih w₁)
    | error f => rw [hx] at h; exact h

theorem writeBytes_ends {m : Nat} (v : BitVec m) (k : Nat) (w : WriterSide) : WriteEnds w (writeBytes v k w) := by
  induction k generalizing w with
  | zero => exact WriteEnds.refl w
  | succ k ih =>
    have h := writeBits_ends (byteOf v k) 8 w
    rw [writeBytes, writeByte]
    cases hx : writeBits (byteOf v k) 8 w with
    | ok w₁ => exact (hx ▸ h).trans (ih w₁)
    | error f => rw [hx] at h; exact h

theorem flushBody_ends (w : WriterSide) : WriteEnds w (flushBody w) := by
  rw [flushBody]
  split
  · exact WriteEnds.refl w
  · exact emit_ends _ w

theorem writeBody_ends {i : Instr} {body : Data → WriterSide → Except Fault WriterSide} (hb : writeBody i = some body) (d : Data)
    (w : WriterSide) : WriteEnds w (body d w) := by
  cases i <;> cases hb
  case wrbit => exact writeBit_ends _ w
  case wrbyte => exact writeBits_ends _ 8 w
  case wrbits k =>
    show WriteEnds w (writeWidth k d w)
    rw [writeWidth]
    split
    · exact writeBytes_ends d 4 w
    · exact writeBits_ends d k w
  all_goals exact writeBytes_ends d _ w

/-- After a flush nothing is pending (R97). -/
theorem flushBody_empties {w w' : WriterSide} (h : WriterInv w) (hx : flushBody w = .ok w') : w'.bw.n = 0 ∧ w'.bw.buf = 0x00 := by
  rw [flushBody] at hx
  split at hx
  case isTrue hn =>
    cases hx
    obtain ⟨-, hbuf, -, -⟩ := h
    rw [hn] at hbuf
    exact ⟨hn, BitVec.eq_of_toNat_eq (Nat.lt_one_iff.mp hbuf)⟩
  case isFalse =>
    obtain ⟨-, he⟩ | ⟨-, he⟩ := emit_cases (padded w.bw.n.toNat w.bw.buf) w <;> cases hx.symm.trans he
    exact ⟨rfl, rfl⟩

/-! ### What every writer command keeps (R24, R27) -/

section
variable {i : Instr} {s t : State} {w : WriterSide} {q : WriterResponse}

/-- Whichever way a writer command ends, the side it leaves meets the invariants (R24). -/
theorem WriterDoes.inv (hd : WriterDoes s i w q) (h : WriterInv s.writerSide) : WriterInv w := by
  cases hd with
  | invalid | wrongState | stat | reclose => exact h
  | bind => simp [WriterInv, bindWriter]
  | write hb _ hl hx =>
    have hends := writeBody_ends hb s.bwWdata s.writerSide
    rw [hx] at hends
    exact (hends.2 ⟨h, hl⟩).1
  | flush hl hx =>
    have hends := flushBody_ends s.writerSide
    rw [hx] at hends
    exact (hends.2 ⟨h, hl⟩).1
  | close _ hx =>
    obtain ⟨hn, hbuf⟩ := flushBody_empties h hx
    simp [WriterInv, hn, hbuf, Sink.close]

/-- What a writer command does to the sink and the lifecycle, in every state (R19, R24). -/
theorem WriterDoes.frame (hd : WriterDoes s i w q) :
    s.snk.bytes <+: w.snk.bytes ∧ (i ≠ .wclose → w.snk.closed = s.snk.closed) ∧
    (i ≠ .wbind → i ≠ .wclose → w.bw.life = s.bw.life) ∧ (i = .wstat → w.bw = s.bw ∧ w.snk = s.snk) ∧
    (i = .wbind → w.snk = s.snk) := by
  have kept : s.snk.bytes <+: s.writerSide.snk.bytes := List.prefix_refl _
  cases hd with
  | invalid | wrongState | stat => exact ⟨kept, fun _ => rfl, fun _ _ => rfl, fun _ => ⟨rfl, rfl⟩, fun _ => rfl⟩
  | bind => exact ⟨kept, fun _ => rfl, fun h => absurd rfl h, nofun, fun _ => rfl⟩
  | write hb _ _ hx =>
    obtain ⟨hlife, hclosed, hbytes⟩ := writeBody_moves hb hx
    refine ⟨hbytes, fun _ => hclosed, fun _ _ => hlife, ?_, ?_⟩ <;> rintro rfl <;> cases hb
  | flush _ hx =>
    obtain ⟨hlife, hclosed, hbytes⟩ := flushBody_moves hx
    exact ⟨hbytes, fun _ => hclosed, fun _ _ => hlife, nofun, nofun⟩
  | close _ hx => exact ⟨(flushBody_moves hx).2.2, fun h => absurd rfl h, fun _ h => absurd rfl h, nofun, nofun⟩
  | reclose => exact ⟨kept, fun _ => rfl, fun _ _ => rfl, nofun, nofun⟩

/-- Every writer command keeps the tie of the sink to the writer (R24 (e)). -/
theorem WriterDoes.sinkClosedExactly (hd : WriterDoes s i w q) (h : SinkClosedExactly s.writerSide) : SinkClosedExactly w := by
  cases hd with
  | invalid | wrongState | stat | reclose => exact h
  | bind hl => simpa [SinkClosedExactly, bindWriter, hl] using h
  | write hb _ _ hx =>
    obtain ⟨hlife, hclosed, -⟩ := writeBody_moves hb hx
    rwa [SinkClosedExactly, hlife, hclosed]
  | flush _ hx =>
    obtain ⟨hlife, hclosed, -⟩ := flushBody_moves hx
    rwa [SinkClosedExactly, hlife, hclosed]
  | close => exact iff_of_true rfl rfl

/-- Every command keeps the writer's invariants; a reader command does not touch the writer's side (R24, R27). -/
theorem exec_keeps_writerInv (h : WriterInv s.writerSide) (he : exec i s = .next t) : WriterInv t.writerSide := by
  cases hp : i.port
  case reader =>
    obtain ⟨r, q, rfl, -⟩ := reader_next hp he
    exact h
  case writer =>
    obtain ⟨w, q, rfl, hd⟩ := writer_next hp he
    exact hd.inv h

/-- Every command keeps the tie of the sink to the writer and only appends to the sink (R24 (d), (e)). -/
theorem exec_keeps_sink (h : SinkClosedExactly s.writerSide) (he : exec i s = .next t) :
    SinkClosedExactly t.writerSide ∧ s.snk.bytes <+: t.snk.bytes := by
  cases hp : i.port
  case reader =>
    obtain ⟨r, q, rfl, -⟩ := reader_next hp he
    exact ⟨h, List.prefix_refl _⟩
  case writer =>
    obtain ⟨w, q, rfl, hd⟩ := writer_next hp he
    exact ⟨hd.sinkClosedExactly h, hd.frame.1⟩

end

/-- Settles O22: the inversion of a writer command lists the sides it can leave, and each of them meets the invariants. -/
theorem writerCommandsKeepTheWriterInvariants : Obligations.WriterCommandsKeepTheWriterInvariants := by
  unfold Obligations.WriterCommandsKeepTheWriterInvariants
  refine ⟨by decide, fun i s t ⟨hinv, hsink⟩ he => ?_⟩
  obtain ⟨hsink', hbytes⟩ := exec_keeps_sink hsink he
  exact ⟨⟨exec_keeps_writerInv hinv he, hsink'⟩, hbytes⟩

/-! ### The invariants of both units over a step (R23, R24, R151) -/

section
variable {s t : State}

/-- A word on either channel, a command or an illegal one, keeps the invariants of both units. -/
theorem runCommand_keeps_inv {p : Port} {w : Cmd} {d : Data} (h : MachineInv s) (hr : runCommand p w d s = .next t) :
    MachineInv t := by
  cases hc : commandOn p w with
  | some i =>
    rw [runCommand_some hc] at hr
    obtain ⟨hreader, hwriter⟩ : MachineInv (s.setWdata p d) := by cases p <;> exact h
    exact ⟨exec_keeps_readerInv hreader hr, exec_keeps_writerInv hwriter hr⟩
  | none =>
    rw [runCommand_none hc] at hr
    cases p <;> cases hr <;> exact h

/-- A reset reader meets its invariants on whatever source it finds (R25, R151). -/
theorem reset_readerInv {k : Source} (h : k.pos ≤ k.bytes.length) : ReaderInv { br := ReaderRegs.reset, src := k } := by
  simpa [ReaderInv, ReaderRegs.reset] using h

/-- A reset writer meets its invariants on whatever sink it finds (R25, R151). -/
theorem reset_writerInv (k : Sink) : WriterInv { bw := WriterRegs.reset, snk := k } := by
  simp [WriterInv, WriterRegs.reset]

/-- A source in its start state suits an unbound reader (R152). -/
theorem newSource_readerInv {b : ReaderRegs} {k : Source} (h : ReaderInv { br := b, src := k }) (hl : b.life = .unbound)
    (bs : List Byte) : ReaderInv { br := b, src := { bytes := bs, pos := 0, released := false } } := by
  obtain ⟨hn, -, -, -, -, hfree, h8, -, -, -⟩ := h
  simp_all [ReaderInv]

/-- A sink in its start state suits an unbound writer (R152). -/
theorem newSink_writerInv {b : WriterRegs} {k : Sink} (h : WriterInv { bw := b, snk := k }) (hl : b.life = .unbound) :
    WriterInv { bw := b, snk := { bytes := [], closed := false } } := by
  obtain ⟨hn, hbuf, hfree, -⟩ := h
  exact ⟨hn, hbuf, hfree, by simp [hl]⟩

/-- Every input keeps the invariants of both units. -/
theorem handleInput_keeps_inv {e : Input} (h : MachineInv s) (he : handleInput e s = .next t) : MachineInv t := by
  obtain ⟨hreader, hwriter⟩ := h
  cases e with
  | readerCmd w d => exact runCommand_keeps_inv ⟨hreader, hwriter⟩ he
  | writerCmd w d => exact runCommand_keeps_inv ⟨hreader, hwriter⟩ he
  | brRst =>
    cases he
    obtain ⟨-, -, -, -, -, -, -, hpos, -, -⟩ := hreader
    exact ⟨reset_readerInv hpos, hwriter⟩
  | bwRst =>
    cases he
    exact ⟨hreader, reset_writerInv s.snk⟩
  | presentSource bs =>
    rw [handleInput] at he
    split at he <;> cases he
    exact ⟨newSource_readerInv hreader ‹_› bs, hwriter⟩
  | presentSink =>
    rw [handleInput] at he
    split at he <;> cases he
    exact ⟨hreader, newSink_writerInv hwriter ‹_›⟩

end

/-- Settles O23: a step holds or handles the oldest input, and every input keeps the invariants of both units. -/
theorem everyStepKeepsTheInvariants : Obligations.EveryStepKeepsTheInvariants := by
  unfold Obligations.EveryStepKeepsTheInvariants
  intro s t h hstep
  cases hin : s.inputs with
  | nil =>
    cases hstep.symm.trans (step_nil hin)
    exact h
  | cons e rest =>
    rw [step_cons hin] at hstep
    exact handleInput_keeps_inv (s := { s with inputs := rest }) h hstep

/-- Settles O13: the inversion of a writer command gives the frame of the state, and `WriterDoes.frame` that of the writer. -/
theorem writerCommandsTouchOnlyTheWriter : Obligations.WriterCommandsTouchOnlyTheWriter := by
  unfold Obligations.WriterCommandsTouchOnlyTheWriter
  intro i s t hp h
  obtain ⟨w, q, rfl, hd⟩ := writer_next hp h
  exact ⟨rfl, rfl, rfl, rfl, rfl, rfl, hd.frame⟩

/-- Settles O20: the invariants evaluated on the reset values. -/
theorem resetMeetsTheInvariants : Obligations.ResetMeetsTheInvariants := by
  unfold Obligations.ResetMeetsTheInvariants
  decide

end Sys2Proof.Machine

/-! ### What a reader command does to the reader's side, in every state (R12, R18, R27) -/

namespace Sys2Proof.Machine

section
variable {i : Instr} {s t : State} {r r' : ReaderSide} {q : ReaderResponse}

/-- A bind that answers leaves the reader bound to the same source, no earlier in it (R71). -/
theorem bindReader_moves {b : Bool} (h : bindReader r = .ok b r') :
    r'.br.life = .bound ∧ r'.src.bytes = r.src.bytes ∧ r'.src.released = r.src.released ∧ r.src.pos ≤ r'.src.pos := by
  have hmoves := fill_moves { r with br := { buf := 0x00, n := 0, eof := false, life := .bound } }
  rw [bindReader] at h
  rw [h] at hmoves
  obtain ⟨hlife, hbytes, hrel, hpos, -⟩ := hmoves
  exact ⟨hlife, hbytes, hrel, hpos⟩

/-- The sides a reader command can leave: the one it found, that of a bind, that of a data read, that of a close. -/
theorem ReaderDoes.side_cases (hd : ReaderDoes s i r q) :
    r = s.readerSide ∨
    (i = .rbind ∧ s.br.life = .unbound ∧ ∃ b, bindReader s.readerSide = .ok b r) ∨
    (i ≠ .rbind ∧ i ≠ .rclose ∧ i ≠ .rstat ∧ ReaderMoves s.readerSide r) ∨
    (i = .rclose ∧ s.br.life = .bound ∧ r = closeReader s.readerSide) := by
  cases hd with
  | invalid | wrongState | stat | reclose => exact .inl rfl
  | bind hl h => exact .inr (.inl ⟨rfl, hl, _, h⟩)
  | read hb _ _ h | readEos hb _ _ h =>
    have hmoves := readBody_moves hb s.readerSide
    rw [h] at hmoves
    refine .inr (.inr (.inl ⟨?_, ?_, ?_, hmoves⟩)) <;> rintro rfl <;> cases hb
  | all _ h | allEos _ h =>
    have hmoves := readAll_moves s.readerSide
    rw [h] at hmoves
    exact .inr (.inr (.inl ⟨nofun, nofun, nofun, hmoves⟩))
  | close hl => exact .inr (.inr (.inr ⟨rfl, hl, rfl⟩))

/-- What a reader command does to the source and the lifecycle, in every state (R18, R81). -/
theorem ReaderDoes.frame (hd : ReaderDoes s i r q) :
    r.src.bytes = s.src.bytes ∧ s.src.pos ≤ r.src.pos ∧ (i ≠ .rclose → r.src.released = s.src.released) ∧
    (i ≠ .rbind → i ≠ .rclose → r.br.life = s.br.life) ∧ (i = .rstat → r.br = s.br ∧ r.src = s.src) ∧
    (i = .rclose → r.br.buf = s.br.buf ∧ r.src.pos = s.src.pos) := by
  obtain rfl | ⟨rfl, -, b, h⟩ | ⟨-, hclose, hstat, hlife, hbytes, hrel, hpos, -⟩ | ⟨rfl, -, rfl⟩ := hd.side_cases
  · exact ⟨rfl, le_rfl, fun _ => rfl, fun _ _ => rfl, fun _ => ⟨rfl, rfl⟩, fun _ => ⟨rfl, rfl⟩⟩
  · obtain ⟨-, hbytes, hrel, hpos⟩ := bindReader_moves h
    exact ⟨hbytes, hpos, fun _ => hrel, fun h => absurd rfl h, nofun, nofun⟩
  · exact ⟨hbytes, hpos, fun _ => hrel, fun _ _ => hlife, fun h => absurd h hstat, fun h => absurd h hclose⟩
  · exact ⟨rfl, le_rfl, fun h => absurd rfl h, fun _ h => absurd rfl h, nofun, fun _ => ⟨rfl, rfl⟩⟩

/-- Only `RBIND` clears `eof` or asks the source again once it is set (R12). -/
theorem ReaderDoes.eof_sticky (hd : ReaderDoes s i r q) (hi : i ≠ .rbind) (he : s.br.eof = true) :
    r.br.eof = true ∧ r.src.pos = s.src.pos := by
  obtain rfl | ⟨rfl, -, -⟩ | ⟨-, -, -, -, -, -, -, heof⟩ | ⟨rfl, -, rfl⟩ := hd.side_cases
  · exact ⟨he, rfl⟩
  · exact absurd rfl hi
  · obtain ⟨he', hsrc, -⟩ := heof he
    exact ⟨he', congrArg Source.pos hsrc⟩
  · exact ⟨rfl, rfl⟩

end

/-- Settles O12: the inversion of a reader command gives the frame of the state, and `ReaderDoes.frame` that of the reader. -/
theorem readerCommandsTouchOnlyTheReader : Obligations.ReaderCommandsTouchOnlyTheReader := by
  unfold Obligations.ReaderCommandsTouchOnlyTheReader
  intro i s t hp h
  obtain ⟨r, q, rfl, hd⟩ := reader_next hp h
  exact ⟨rfl, rfl, rfl, rfl, rfl, rfl, hd.frame⟩

/-- Settles O24: a writer command leaves the reader's side alone, and of the reader's only the bind clears the flag. -/
theorem endOfStreamFlagIsSticky : Obligations.EndOfStreamFlagIsSticky := by
  unfold Obligations.EndOfStreamFlagIsSticky
  intro i s t hi he h
  cases hp : i.port
  case reader =>
    obtain ⟨r, q, rfl, hd⟩ := reader_next hp h
    exact hd.eof_sticky hi he
  case writer =>
    obtain ⟨w, q, rfl, -⟩ := writer_next hp h
    exact ⟨he, rfl⟩

/-! ### The moves of the lifecycle (R13, R16, R140) -/

/-- The bind of a unit (R57). -/
def bindOf : Port → Instr
  | .reader => .rbind
  | .writer => .wbind

/-- The close of a unit (R57). -/
def closeOf : Port → Instr
  | .reader => .rclose
  | .writer => .wclose

/-- The reset input of a unit (R150). -/
def resetOf : Port → Input
  | .reader => .brRst
  | .writer => .bwRst

section
variable {p p' : Port} {i : Instr} {s t : State}

/-- A command moves the lifecycle of its own unit alone: a bind from `UNBOUND` to `BOUND`, a close from `BOUND` to `CLOSED`. -/
theorem exec_life (h : exec i s = .next t) (hne : lifeOf p t ≠ lifeOf p s) :
    i.port = p ∧
    ((i = bindOf p ∧ lifeOf p s = .unbound ∧ lifeOf p t = .bound) ∨
      (i = closeOf p ∧ lifeOf p s = .bound ∧ lifeOf p t = .closed)) := by
  cases hp : i.port
  case reader =>
    obtain ⟨r, q, rfl, hd⟩ := reader_next hp h
    cases p
    case reader =>
      obtain rfl | ⟨rfl, hl, b, hb⟩ | ⟨-, -, -, hlife, -⟩ | ⟨rfl, hl, rfl⟩ := hd.side_cases
      · exact absurd rfl hne
      · exact ⟨rfl, .inl ⟨rfl, hl, (bindReader_moves hb).1⟩⟩
      · exact absurd hlife hne
      · exact ⟨rfl, .inr ⟨rfl, hl, rfl⟩⟩
    case writer => exact absurd rfl hne
  case writer =>
    obtain ⟨w, q, rfl, hd⟩ := writer_next hp h
    cases p
    case reader => exact absurd rfl hne
    case writer =>
      cases hd with
      | invalid | wrongState | stat | reclose => exact absurd rfl hne
      | bind hl => exact ⟨rfl, .inl ⟨rfl, hl, rfl⟩⟩
      | write hb _ _ hx => exact absurd (writeBody_moves hb hx).1 hne
      | flush _ hx => exact absurd (flushBody_moves hx).1 hne
      | close hl => exact ⟨rfl, .inr ⟨rfl, hl, rfl⟩⟩

/-- A word moves a lifecycle only as the word of that unit's bind or close. -/
theorem runCommand_life {w : Cmd} {d : Data} (h : runCommand p' w d s = .next t) (hne : lifeOf p t ≠ lifeOf p s) :
    p' = p ∧
    ((w = encode (bindOf p) ∧ lifeOf p s = .unbound ∧ lifeOf p t = .bound) ∨
      (w = encode (closeOf p) ∧ lifeOf p s = .bound ∧ lifeOf p t = .closed)) := by
  cases hc : commandOn p' w with
  | some i =>
    obtain ⟨hdec, rfl⟩ := commandOn_some.mp hc
    rw [runCommand_some hc] at h
    obtain ⟨hp, hmove⟩ := exec_life h (by rwa [lifeOf_setWdata])
    rw [lifeOf_setWdata] at hmove
    obtain ⟨-, rfl⟩ := encode_of_decode hdec
    exact ⟨hp, hmove.imp (And.imp_left (congrArg encode)) (And.imp_left (congrArg encode))⟩
  | none =>
    rw [runCommand_none hc] at h
    cases p' <;> cases h <;> cases p <;> exact absurd rfl hne

/-- An input moves a lifecycle only as that unit's reset, or as the word of its bind or its close. -/
theorem handleInput_life {e : Input} (h : handleInput e s = .next t) (hne : lifeOf p t ≠ lifeOf p s) :
    (lifeOf p t = .unbound ∧ e = resetOf p) ∨
    (lifeOf p s = .unbound ∧ lifeOf p t = .bound ∧ ∃ d, e = Input.command p (encode (bindOf p)) d) ∨
    (lifeOf p s = .bound ∧ lifeOf p t = .closed ∧ ∃ d, e = Input.command p (encode (closeOf p)) d) := by
  cases e with
  | readerCmd w d | writerCmd w d =>
    obtain ⟨rfl, ⟨rfl, hs, ht⟩ | ⟨rfl, hs, ht⟩⟩ := runCommand_life h hne
    · exact .inr (.inl ⟨hs, ht, d, rfl⟩)
    · exact .inr (.inr ⟨hs, ht, d, rfl⟩)
  | brRst =>
    cases h
    cases p
    · exact .inl ⟨rfl, rfl⟩
    · exact absurd rfl hne
  | bwRst =>
    cases h
    cases p
    · exact absurd rfl hne
    · exact .inl ⟨rfl, rfl⟩
  | presentSource bs | presentSink =>
    rw [handleInput] at h
    split at h <;> cases h
    cases p <;> exact absurd rfl hne

/-- The moves of one unit's lifecycle over a step. -/
theorem step_life (h : step s = .next t) (hne : lifeOf p t ≠ lifeOf p s) :
    (lifeOf p t = .unbound ∧ ∃ rest, s.inputs = resetOf p :: rest) ∨
    (lifeOf p s = .unbound ∧ lifeOf p t = .bound ∧ ∃ d rest, s.inputs = Input.command p (encode (bindOf p)) d :: rest) ∨
    (lifeOf p s = .bound ∧ lifeOf p t = .closed ∧ ∃ d rest, s.inputs = Input.command p (encode (closeOf p)) d :: rest) := by
  cases hin : s.inputs with
  | nil =>
    cases h.symm.trans (step_nil hin)
    exact absurd rfl hne
  | cons e rest =>
    rw [step_cons hin] at h
    have hsame : lifeOf p { s with inputs := rest } = lifeOf p s := by cases p <;> rfl
    rw [← hsame] at hne ⊢
    obtain ⟨ht, rfl⟩ | ⟨hs, ht, d, rfl⟩ | ⟨hs, ht, d, rfl⟩ := handleInput_life h hne
    · exact .inl ⟨ht, rest, rfl⟩
    · exact .inr (.inl ⟨hs, ht, d, rest, rfl⟩)
    · exact .inr (.inr ⟨hs, ht, d, rest, rfl⟩)

end

/-- Settles O16: `step_life` for either unit, with the four words written out. -/
theorem lifecycleMovesOnlyAsRuled : Obligations.LifecycleMovesOnlyAsRuled := by
  unfold Obligations.LifecycleMovesOnlyAsRuled
  exact fun s t h => ⟨step_life (p := .reader) h, step_life (p := .writer) h⟩

end Sys2Proof.Machine

/-! ### The form of a response (R54) -/

namespace Sys2Proof.Machine

/-- A quantity put on more or fewer bits has no more bits than it had. -/
theorem setWidth_lt {w m : Nat} (v : BitVec w) : (v.setWidth m).toNat < 2 ^ w := by
  rw [BitVec.toNat_setWidth]
  exact lt_of_le_of_lt (Nat.mod_le _ _) v.isLt

/-- The value of a read, if there is one, is below `2 ^ k`, in whatever state. -/
def ReadOut.Below {w : Nat} (k : Nat) (o : ReadOut (BitVec w)) : Prop :=
  o.Ends (fun v _ => v.toNat < 2 ^ k) (fun _ => True) True

theorem ReadOut.ends_any {α : Type} (o : ReadOut α) : o.Ends (fun _ _ => True) (fun _ => True) True := by
  cases o <;> trivial

theorem ReadOut.below_map {α : Type} {w k : Nat} (o : ReadOut α) {g : α → BitVec w} (h : ∀ v, (g v).toNat < 2 ^ k) :
    (o.map g).Below k :=
  o.ends_any.map fun v _ _ => h v

/-- The bit-by-bit loop adds `k` bits to those already in `x` (R77). -/
theorem readLoop_lt (k : Nat) (x : BitVec 32) (r : ReaderSide) (h : (x.toNat + 1) * 2 ^ k ≤ 2 ^ 32) :
    (readLoop k x r).Ends (fun v _ => v.toNat < (x.toNat + 1) * 2 ^ k) (fun _ => True) True := by
  induction k generalizing x r with
  | zero => simp [readLoop]
  | succ k ih =>
    refine (readBit r).ends_any.bind (fun b r' _ => ?_) (fun _ => id) id
    have hb := b.toNat_le
    have hpow : 0 < 2 ^ k := Nat.two_pow_pos k
    rw [pow_succ] at h ⊢
    have hle : (2 * x.toNat + b.toNat + 1) * 2 ^ k ≤ (x.toNat + 1) * (2 ^ k * 2) := by nlinarith
    have hx : (appendBit x b).toNat = 2 * x.toNat + b.toNat := appendBit_toNat x b (by nlinarith)
    rw [← hx] at hle
    exact (ih (appendBit x b) r' (hle.trans h)).mono (fun _ _ hv => hv.trans_le hle) (fun _ => id) id

theorem readWidth_below {k : Nat} (hk : widthLegal k) (r : ReaderSide) : (readWidth k r).Below k := by
  unfold readWidth
  split
  case isTrue h8 => subst h8; exact (readByte r).below_map setWidth_lt
  case isFalse =>
    split
    case isTrue h16 => subst h16; exact (readQuantity 16 2 r).below_map setWidth_lt
    case isFalse =>
      split
      case isTrue h32 => subst h32; exact (ReadOut.ends_any _).mono (fun v _ _ => v.isLt) (fun _ => id) id
      case isFalse =>
        have hpow : 2 ^ k ≤ 2 ^ 32 := Nat.pow_le_pow_right (by omega) hk.2
        simpa [ReadOut.Below] using readLoop_lt k 0 r (by simpa using hpow)

/-- The result of a data read has no bits above its width (R54, R57). -/
theorem readBody_below {i : Instr} {body : ReaderSide → ReadOut Data} (hb : readBody i = some body) (hw : badWidth i = false)
    (r : ReaderSide) : (body r).Below (resultWidth i) := by
  cases i <;> cases hb
  case rdbits k =>
    exact (readWidth_below ((badWidth_rdbits k).mp hw) r).map fun v _ hv => by
      rw [onBus, BitVec.toNat_setWidth]
      exact lt_of_le_of_lt (Nat.mod_le _ _) hv
  case rdbit => exact (readBit r).below_map fun b => setWidth_lt (BitVec.ofBool b)
  all_goals exact ReadOut.below_map _ setWidth_lt

section
variable {i : Instr} {s : State} {r : ReaderSide} {q : ReaderResponse} {w : WriterSide} {a : WriterResponse}

/-- The form of a reader response, whichever way the command ends (R54). -/
theorem ReaderDoes.response_form (hd : ReaderDoes s i r q) :
    (q.status ≠ .ok → q.rdata = 0) ∧ q.rdata.toNat < 2 ^ resultWidth i ∧
    (i = .rstat → q.status = .ok ∧ q.rdata = s.br.rstat.setWidth 64) ∧ (q.rbytes ≠ [] → i = .rdall ∧ q.status = .ok) := by
  have hzero : (0 : Data).toNat < 2 ^ resultWidth i := Nat.two_pow_pos _
  cases hd with
  | invalid hw => exact ⟨fun _ => rfl, hzero, (by rintro rfl; cases hw), nofun⟩
  | wrongState _ hs => exact ⟨fun _ => rfl, hzero, (by rintro rfl; cases hs), nofun⟩
  | read hb hw _ h =>
    have hbelow := readBody_below hb hw s.readerSide
    rw [h] at hbelow
    exact ⟨nofun, hbelow, (by rintro rfl; cases hb), nofun⟩
  | readEos hb => exact ⟨fun _ => rfl, hzero, (by rintro rfl; cases hb), nofun⟩
  | all => exact ⟨fun _ => rfl, hzero, nofun, fun _ => ⟨rfl, rfl⟩⟩
  | stat => exact ⟨nofun, setWidth_lt s.br.rstat, fun _ => ⟨rfl, rfl⟩, nofun⟩
  | bind | allEos | close | reclose => exact ⟨fun _ => rfl, hzero, nofun, nofun⟩

/-- The form of a writer response, whichever way the command ends (R54). -/
theorem WriterDoes.response_form (hd : WriterDoes s i w a) :
    (a.status ≠ .ok → a.rdata = 0) ∧ a.rdata.toNat < 2 ^ resultWidth i ∧
    (i = .wstat → a.status = .ok ∧ a.rdata = s.bw.wstat.setWidth 64) := by
  have hzero : (0 : Data).toNat < 2 ^ resultWidth i := Nat.two_pow_pos _
  cases hd with
  | invalid hw => exact ⟨fun _ => rfl, hzero, (by rintro rfl; cases hw)⟩
  | wrongState _ hs => exact ⟨fun _ => rfl, hzero, (by rintro rfl; cases hs)⟩
  | write hb => exact ⟨fun _ => rfl, hzero, (by rintro rfl; cases hb)⟩
  | stat => exact ⟨nofun, setWidth_lt s.bw.wstat, fun _ => ⟨rfl, rfl⟩⟩
  | bind | flush | close | reclose => exact ⟨fun _ => rfl, hzero, nofun⟩

end

/-- Settles O11: the inversions give the one response and the other channel unchanged, and each way a command ends has the form. -/
theorem responsesHaveTheRuledForm : Obligations.ResponsesHaveTheRuledForm := by
  unfold Obligations.ResponsesHaveTheRuledForm
  refine ⟨by decide, fun i s t hp h => ?_, fun i s t hp h => ?_⟩
  · obtain ⟨r, q, rfl, hd⟩ := reader_next hp h
    exact ⟨q, rfl, rfl, hd.response_form⟩
  · obtain ⟨w, a, rfl, hd⟩ := writer_next hp h
    exact ⟨a, rfl, rfl, hd.response_form⟩

/-! ### Where a command stops (R32, R33) -/

/-- A read faults only by asking a source that is released (R32). -/
def ReadOut.StopsOn {α : Type} (r : ReaderSide) (o : ReadOut α) : Prop :=
  ∀ f, o = .fault f → f = .sourceReleased ∧ r.src.released = true

theorem ReadOut.StopsOn.bind {α β : Type} {r : ReaderSide} {o : ReadOut α} {k : α → ReaderSide → ReadOut β}
    (h : o.StopsOn r) (hm : o.Moves r) (hk : ∀ v r', (k v r').StopsOn r') : (o.bind k).StopsOn r := by
  cases o with
  | ok v r' =>
    obtain ⟨-, -, hrel, -⟩ := hm
    exact fun f hf => hrel ▸ hk v r' f hf
  | eos r' => exact nofun
  | fault f => exact fun g hg => h g (by cases hg; rfl)

theorem ReadOut.StopsOn.map {α β : Type} {r : ReaderSide} {o : ReadOut α} (g : α → β) (h : o.StopsOn r) :
    (o.map g).StopsOn r := by
  cases o with
  | fault f => exact fun g hg => h g (by cases hg; rfl)
  | ok | eos => exact nofun

theorem fill_stopsOn (r : ReaderSide) : (fill r).StopsOn r := by
  obtain ⟨-, hf⟩ | ⟨-, hr, hf⟩ | ⟨-, -, b, -, hf⟩ | ⟨-, -, -, hf⟩ := fill_cases r <;> rw [hf]
  · exact nofun
  · exact fun f h => ⟨(ReadOut.fault.inj h).symm, hr⟩
  · exact nofun
  · exact nofun

theorem bindReader_stopsOn (r : ReaderSide) : (bindReader r).StopsOn r :=
  fill_stopsOn { r with br := { buf := 0x00, n := 0, eof := false, life := .bound } }

theorem readBit_stopsOn (r : ReaderSide) : (readBit r).StopsOn r := by
  unfold readBit
  by_cases hn : r.br.n = 0
  · simp only [hn, if_true]
    exact nofun
  · by_cases h0 : r.br.n - 1 = 0
    · simp only [hn, h0, if_true, if_false]
      exact (fill_stopsOn (r.setN 0)).bind (fill_moves (r.setN 0)) fun _ _ => nofun
    · simp only [hn, h0, if_false]
      exact nofun

theorem readByte_stopsOn (r : ReaderSide) : (readByte r).StopsOn r := by
  unfold readByte
  split
  · exact nofun
  · split
    · exact (fill_stopsOn (r.setN 0)).bind (fill_moves (r.setN 0)) fun _ _ => nofun
    · refine (fill_stopsOn r).bind (fill_moves r) fun loaded _ => ?_
      cases loaded <;> exact nofun

theorem readBytes_stopsOn (k : Nat) (r : ReaderSide) : (readBytes k r).StopsOn r := by
  induction k generalizing r with
  | zero => exact nofun
  | succ k ih =>
    exact (readByte_stopsOn r).bind (readByte_moves r) fun b r' => (ih r').bind (readBytes_moves k r') fun _ _ => nofun

theorem readLoop_stopsOn (k : Nat) (x : BitVec 32) (r : ReaderSide) : (readLoop k x r).StopsOn r := by
  induction k generalizing x r with
  | zero => exact nofun
  | succ k ih => exact (readBit_stopsOn r).bind (readBit_moves r) fun b r' => ih _ r'

theorem readAllLoop_stopsOn (fuel : Nat) (out : List Byte) (r : ReaderSide) : (readAllLoop fuel out r).StopsOn r := by
  induction fuel generalizing out r with
  | zero => exact nofun
  | succ fuel ih =>
    unfold readAllLoop
    split
    · exact nofun
    · exact (readByte_stopsOn r).bind (readByte_moves r) fun b r' => ih _ r'

theorem readBody_stopsOn {i : Instr} {body : ReaderSide → ReadOut Data} (hb : readBody i = some body) (r : ReaderSide) :
    (body r).StopsOn r := by
  cases i <;> cases hb
  case rdbit => exact (readBit_stopsOn r).map _
  case rdbyte => exact (readByte_stopsOn r).map _
  case rdbits k =>
    refine ReadOut.StopsOn.map _ ?_
    unfold readWidth
    split
    · exact (readByte_stopsOn r).map _
    · split
      · exact ((readBytes_stopsOn 2 r).map _).map _
      · split
        · exact (readBytes_stopsOn 4 r).map _
        · exact readLoop_stopsOn k 0 r
  all_goals exact ((readBytes_stopsOn _ r).map _).map _

/-- A command is never refused, and faults with `f` alone, under `c`. -/
def StopsOnlyOn (f : Fault) (c : Prop) (o : Outcome) : Prop :=
  match o with
  | .next _ => True
  | .fault g => g = f ∧ c
  | .refused _ => False

section
variable {i : Instr} {s : State}

/-- A reader command is a data read of fixed length or one of four others (R57). -/
theorem reader_kinds (hp : i.port = .reader) :
    (∃ body, readBody i = some body) ∨ i = .rbind ∨ i = .rdall ∨ i = .rstat ∨ i = .rclose := by
  cases i <;> simp [readBody, Instr.port] at hp ⊢

/-- A writer command is a write or one of four others (R57). -/
theorem writer_kinds (hp : i.port = .writer) :
    (∃ body, writeBody i = some body) ∨ i = .wbind ∨ i = .flush ∨ i = .wstat ∨ i = .wclose := by
  cases i <;> simp [writeBody, Instr.port] at hp ⊢

theorem finishReader_stops {α : Type} {rdata : α → Data} {rbytes : α → List Byte} {o : ReadOut α} {r : ReaderSide}
    (h : o.StopsOn r) : StopsOnlyOn .sourceReleased (r.src.released = true) (finishReader rdata rbytes s o) := by
  cases o with
  | ok | eos => trivial
  | fault f => exact h f rfl

theorem StopsOnlyOn.and {f : Fault} {c c' : Prop} {o : Outcome} (h : StopsOnlyOn f c o) (hc : c') : StopsOnlyOn f (c ∧ c') o := by
  cases o with
  | next => trivial
  | fault => exact ⟨h.1, h.2, hc⟩
  | refused => exact h

theorem StopsOnlyOn.answers {f : Fault} {c : Prop} {o : Outcome} (h : StopsOnlyOn f c o) (hc : ¬ c) : ∃ t, o = .next t := by
  cases o with
  | next t => exact ⟨t, rfl⟩
  | fault => exact absurd h.2 hc
  | refused => exact h.elim

theorem dataRead_stops {α : Type} {body : ReaderSide → ReadOut α} {rdata : α → Data} {rbytes : α → List Byte}
    (h : (body s.readerSide).StopsOn s.readerSide) :
    StopsOnlyOn .sourceReleased (s.src.released = true ∧ s.br.life ≠ .closed) (dataRead body rdata rbytes s) := by
  by_cases hl : s.br.life = .bound
  · rw [dataRead_bound _ _ _ hl]
    exact (finishReader_stops h).and (by simp [hl])
  · rw [dataRead_refused _ _ _ hl]
    trivial

theorem dataWrite_stops {body : WriterSide → Except Fault WriterSide} (h : WriteEnds s.writerSide (body s.writerSide)) :
    StopsOnlyOn .sinkClosed (s.snk.closed = true ∧ s.bw.life = .bound) (dataWrite body s) := by
  by_cases hl : s.bw.life = .bound
  · have hx : dataWrite body s = finishWriter s (body s.writerSide) := if_pos hl
    rw [hx]
    cases hb : body s.writerSide with
    | ok => trivial
    | error f =>
      rw [hb] at h
      exact ⟨h.1, h.2, hl⟩
  · rw [dataWrite_refused _ hl]
    trivial

/-- A reader command stops only by asking a released source, which a closed reader does not (R32). -/
theorem exec_reader_stops (hp : i.port = .reader) (s : State) :
    StopsOnlyOn .sourceReleased (s.src.released = true ∧ s.br.life ≠ .closed) (exec i s) := by
  cases hw : badWidth i
  case true =>
    rw [exec_invalid hw, hp]
    trivial
  case false =>
    obtain ⟨body, hb⟩ | rfl | rfl | rfl | rfl := reader_kinds hp
    · rw [exec_read hb hw]
      exact dataRead_stops (readBody_stopsOn hb s.readerSide)
    · rw [exec, execRbind]
      split
      case isTrue hl => exact (finishReader_stops (bindReader_stopsOn s.readerSide)).and (show s.br.life ≠ .closed by simp [hl])
      case isFalse => trivial
    · exact dataRead_stops (readAllLoop_stopsOn _ _ s.readerSide)
    · trivial
    · rw [exec, execRclose]
      split <;> trivial

/-- A close faults only where its flush does (R100). -/
theorem closeWriter_error {w : WriterSide} {f : Fault} (h : closeWriter w = .error f) : flushBody w = .error f := by
  unfold closeWriter at h
  split at h <;> cases h
  assumption

/-- A writer command stops only by putting a byte to a closed sink, which only a bound writer does (R33). -/
theorem exec_writer_stops (hp : i.port = .writer) (s : State) :
    StopsOnlyOn .sinkClosed (s.snk.closed = true ∧ s.bw.life = .bound) (exec i s) := by
  cases hw : badWidth i
  case true =>
    rw [exec_invalid hw, hp]
    trivial
  case false =>
    obtain ⟨body, hb⟩ | rfl | rfl | rfl | rfl := writer_kinds hp
    · rw [exec_write hb hw]
      exact dataWrite_stops (writeBody_ends hb _ s.writerSide)
    · rw [exec, execWbind]
      split <;> trivial
    · exact dataWrite_stops (flushBody_ends s.writerSide)
    · trivial
    · rw [exec, execWclose]
      split <;> rename_i hl
      · trivial
      · cases hx : closeWriter s.writerSide with
        | ok => trivial
        | error f =>
          have hends := flushBody_ends s.writerSide
          rw [closeWriter_error hx] at hends
          exact ⟨hends.1, hends.2, hl⟩
      · trivial

end

/-- Settles O17: each unit's commands stop only on the fault of its own environment. -/
theorem commandsStopOnlyOnABrokenPrecondition : Obligations.CommandsStopOnlyOnABrokenPrecondition := by
  unfold Obligations.CommandsStopOnlyOnABrokenPrecondition
  intro i s
  cases hp : i.port
  case reader =>
    have hstops := exec_reader_stops hp s
    refine ⟨fun f hf => ?_, fun q hq => ?_⟩
    · rw [hf] at hstops
      obtain ⟨hfault, hrel, -⟩ := hstops
      exact .inl ⟨hfault, rfl, hrel⟩
    · rwa [hq] at hstops
  case writer =>
    have hstops := exec_writer_stops hp s
    refine ⟨fun f hf => ?_, fun q hq => ?_⟩
    · rw [hf] at hstops
      obtain ⟨hfault, hclosed, -⟩ := hstops
      exact .inr ⟨hfault, rfl, hclosed⟩
    · rwa [hq] at hstops

/-- Settles O19: under the invariants a source that is asked is not released, and a sink that is put to is open. -/
theorem everyCommandAnswers : Obligations.EveryCommandAnswers := by
  unfold Obligations.EveryCommandAnswers
  rintro i s ⟨⟨-, -, -, -, -, -, -, -, hbound, -⟩, -⟩ hunbound hsink
  cases hp : i.port
  case reader =>
    refine (exec_reader_stops hp s).answers fun ⟨hrel, hopen⟩ => ?_
    have hnot : s.src.released = false := by
      cases hl : s.br.life with
      | unbound => exact hunbound hl
      | bound => exact hbound hl
      | closed => exact absurd hl hopen
    cases hrel.symm.trans hnot
  case writer =>
    refine (exec_writer_stops hp s).answers fun ⟨hclosed, hl⟩ => ?_
    cases (hsink.mp hclosed).symm.trans hl

end Sys2Proof.Machine

/-! ### Reads that take the same bits leave the same reader (R73, R113, R120) -/

namespace Sys2Proof.Machine

/-- What a read that succeeds does to the registers, in every state: the frame; `buf` is the byte before `pos` unless nothing was
fetched; and as long as bits are resident `eof` is as it was. -/
def ReadsOn (r r' : ReaderSide) : Prop :=
  ReaderMoves r r' ∧
  ((r'.src.pos = r.src.pos ∧ r'.br.buf = r.br.buf) ∨
    (r.src.pos < r'.src.pos ∧ r'.src.bytes[r'.src.pos - 1]? = some r'.br.buf)) ∧
  (r'.br.n ≠ 0 → r.br.n ≠ 0 ∧ r'.br.eof = r.br.eof)

theorem ReadsOn.refl (r : ReaderSide) : ReadsOn r r := ⟨ReaderMoves.refl r, .inl ⟨rfl, rfl⟩, fun h => ⟨h, rfl⟩⟩

theorem ReadsOn.trans {a b c : ReaderSide} (h : ReadsOn a b) (k : ReadsOn b c) : ReadsOn a c := by
  obtain ⟨hmoves, hbuf, heof⟩ := h
  obtain ⟨kmoves, kbuf, keof⟩ := k
  refine ⟨hmoves.trans kmoves, ?_, fun hc => ?_⟩
  · obtain ⟨-, hbytes, -, hpos, -⟩ := hmoves
    obtain ⟨-, kbytes, -, -, -⟩ := kmoves
    obtain ⟨kpos, kbuf⟩ | ⟨kpos, kbuf⟩ := kbuf
    · rwa [kpos, kbuf, kbytes]
    · exact .inr ⟨by omega, kbuf⟩
  · obtain ⟨hb, he⟩ := keof hc
    obtain ⟨ha, he'⟩ := heof hb
    exact ⟨ha, he.trans he'⟩

theorem ReaderSide.eq_of_fields {a b : ReaderSide} (hbuf : a.br.buf = b.br.buf) (hn : a.br.n = b.br.n) (heof : a.br.eof = b.br.eof)
    (hlife : a.br.life = b.br.life) (hbytes : a.src.bytes = b.src.bytes) (hpos : a.src.pos = b.src.pos)
    (hrel : a.src.released = b.src.released) : a = b := by
  obtain ⟨⟨_, _, _, _⟩, ⟨_, _, _⟩⟩ := a
  obtain ⟨⟨_, _, _, _⟩, ⟨_, _, _⟩⟩ := b
  simp_all

/-- How many bits remain to a ready reader fixes the count and the position in the source. -/
theorem position_of_rem {a b : ReaderSide} (ha : ReaderReady a) (hb : ReaderReady b) (hbytes : a.src.bytes = b.src.bytes)
    (hrem : a.rem.length = b.rem.length) : a.br.n = b.br.n ∧ a.src.pos = b.src.pos := by
  obtain ⟨⟨an, aempty, aend, -, -, -, -, apos, -, -⟩, al⟩ := ha
  obtain ⟨⟨bn, bempty, bend, -, -, -, -, bpos, -, -⟩, bl⟩ := hb
  have azero : a.br.n.toNat = 0 → a.src.pos = a.src.bytes.length :=
    fun h => aend al (aempty al ((count_eq_zero_iff _).mpr h))
  have bzero : b.br.n.toNat = 0 → b.src.pos = b.src.bytes.length :=
    fun h => bend bl (bempty bl ((count_eq_zero_iff _).mpr h))
  rw [rem_length, rem_length, hbytes] at hrem
  rw [hbytes] at apos azero
  have hboth : a.br.n.toNat = b.br.n.toNat ∧ a.src.pos = b.src.pos := by omega
  exact ⟨BitVec.eq_of_toNat_eq hboth.1, hboth.2⟩

/-- A ready reader after successful reads is determined by the reader before them and by how many bits remain. -/
theorem ReadsOn.determined {r a b : ReaderSide} (ha : ReadsOn r a) (hb : ReadsOn r b) (ra : ReaderReady a) (rb : ReaderReady b)
    (hrem : a.rem = b.rem) : a = b := by
  obtain ⟨⟨alife, abytes, arel, -, -⟩, abuf, aeof⟩ := ha
  obtain ⟨⟨blife, bbytes, brel, -, -⟩, bbuf, beof⟩ := hb
  have hbytes : a.src.bytes = b.src.bytes := abytes.trans bbytes.symm
  obtain ⟨hn, hpos⟩ := position_of_rem ra rb hbytes (congrArg List.length hrem)
  have hbuf : a.br.buf = b.br.buf := by
    obtain ⟨ap, ab⟩ | ⟨ap, ab⟩ := abuf <;> obtain ⟨bp, bb⟩ | ⟨bp, bb⟩ := bbuf
    · exact ab.trans bb.symm
    · omega
    · omega
    · rw [hbytes, hpos] at ab
      exact Option.some.inj (ab.symm.trans bb)
  have heof : a.br.eof = b.br.eof := by
    by_cases h0 : a.br.n = 0
    · obtain ⟨⟨-, aempty, -⟩, al⟩ := ra
      obtain ⟨⟨-, bempty, -⟩, bl⟩ := rb
      exact (aempty al h0).trans (bempty bl (hn ▸ h0)).symm
    · exact (aeof h0).2.trans (beof (hn ▸ h0)).2.symm
  exact ReaderSide.eq_of_fields hbuf hn heof (alife.trans blife.symm) hbytes hpos (arel.trans brel.symm)

/-- Every successful end of a read is such a move. -/
def ReadOut.ReadsOn {α : Type} (r : ReaderSide) (o : ReadOut α) : Prop :=
  o.Ends (fun _ r' => Machine.ReadsOn r r') (fun _ => True) True

theorem ReadOut.ReadsOn.bind {α β : Type} {r : ReaderSide} {o : ReadOut α} {k : α → ReaderSide → ReadOut β}
    (h : o.ReadsOn r) (hk : ∀ v r', (k v r').ReadsOn r') : (o.bind k).ReadsOn r :=
  Ends.bind h (fun v r' hr => (hk v r').mono (fun _ _ h' => hr.trans h') (fun _ => id) id) (fun _ => id) id

theorem ReadOut.ReadsOn.map {α β : Type} {r : ReaderSide} {o : ReadOut α} (g : α → β) (h : o.ReadsOn r) : (o.map g).ReadsOn r :=
  h.bind fun _ r' => Machine.ReadsOn.refl r'

/-- The refill after the last resident bit was handed out. -/
theorem fill_emptied_readsOn {r : ReaderSide} (hn : r.br.n ≠ 0) : (fill (r.setN 0)).ReadsOn r := by
  obtain ⟨he, hf⟩ | ⟨he, hr, hf⟩ | ⟨he, hr, b, hby, hf⟩ | ⟨he, hr, hby, hf⟩ := fill_cases (r.setN 0) <;>
    simp_all [ReadOut.ReadsOn, ReadsOn, ReaderMoves]

theorem readBit_readsOn (r : ReaderSide) : (readBit r).ReadsOn r := by
  unfold readBit
  by_cases hn : r.br.n = 0
  · simp only [hn, if_true]
    trivial
  · by_cases h0 : r.br.n - 1 = 0
    · simp only [hn, h0, if_true, if_false]
      exact (fill_emptied_readsOn hn).bind fun _ r' => ReadsOn.refl r'
    · simp only [hn, h0, if_false]
      exact ⟨ReaderMoves.setN r _, .inl ⟨rfl, rfl⟩, fun _ => ⟨hn, rfl⟩⟩

theorem readByte_readsOn (r : ReaderSide) : (readByte r).ReadsOn r := by
  unfold readByte
  by_cases hn : r.br.n = 0
  · simp only [hn, if_true]
    trivial
  · by_cases h8 : r.br.n = 8
    · simp only [h8, if_true]
      exact (fill_emptied_readsOn hn).bind fun _ r' => ReadsOn.refl r'
    · simp only [hn, h8, if_false]
      obtain ⟨he, hf⟩ | ⟨he, hr, hf⟩ | ⟨he, hr, b, hby, hf⟩ | ⟨he, hr, hby, hf⟩ := fill_cases r <;>
        simp_all [ReadOut.ReadsOn, ReadsOn, ReaderMoves]

theorem readBytes_readsOn (k : Nat) (r : ReaderSide) : (readBytes k r).ReadsOn r := by
  induction k generalizing r with
  | zero => exact ReadsOn.refl r
  | succ k ih => exact (readByte_readsOn r).bind fun b r' => (ih r').bind fun _ r'' => ReadsOn.refl r''

theorem readLoop_readsOn (k : Nat) (x : BitVec 32) (r : ReaderSide) : (readLoop k x r).ReadsOn r := by
  induction k generalizing x r with
  | zero => exact ReadsOn.refl r
  | succ k ih => exact (readBit_readsOn r).bind fun b r' => ih _ r'

theorem readWidth_readsOn (k : Nat) (r : ReaderSide) : (readWidth k r).ReadsOn r := by
  unfold readWidth
  split
  · exact (readByte_readsOn r).map _
  · split
    · exact ((readBytes_readsOn 2 r).map _).map _
    · split
      · exact (readBytes_readsOn 4 r).map _
      · exact readLoop_readsOn k 0 r

/-- A byte read and eight bit reads succeed together, with the same byte and the same reader left. -/
theorem readByte_eq_readLoop {r : ReaderSide} (hr : ReaderReady r) :
    (∃ b r', readByte r = .ok b r' ∧ readLoop 8 0 r = .ok (b.setWidth 32) r') ∨
    (∃ r' r'', readByte r = .eos r' ∧ readLoop 8 0 r = .eos r'') := by
  have hbyte := readByte_spec hr
  have hloop := readLoop_spec 8 0 hr (by decide)
  have hbyteOn := readByte_readsOn r
  have hloopOn := readLoop_readsOn 8 0 r
  have hwidth : ∀ b : Byte, (byteBits b).length = 8 := byteBits_length
  cases hb : readByte r with
  | fault f => rw [hb] at hbyte; exact hbyte.elim
  | ok b r' =>
    rw [hb] at hbyte hbyteOn
    obtain ⟨hready, hrem⟩ := hbyte
    cases hv : readLoop 8 0 r with
    | fault f => rw [hv] at hloop; exact hloop.elim
    | eos r'' =>
      rw [hv] at hloop
      obtain ⟨-, hshort, -, -⟩ := hloop
      simp [hrem] at hshort
    | ok v r'' =>
      rw [hv] at hloop hloopOn
      obtain ⟨hready', -, hval, hrem'⟩ := hloop
      rw [hrem, List.drop_left' (hwidth b)] at hrem'
      rw [hrem, List.take_left' (hwidth b), val_byteBits] at hval
      have hside : r'' = r' := hloopOn.determined hbyteOn hready' hready hrem'
      have hv32 : v = b.setWidth 32 := by
        have hlt : b.toNat < 2 ^ 8 := b.isLt
        apply BitVec.eq_of_toNat_eq
        rw [hval, BitVec.toNat_setWidth, Nat.mod_eq_of_lt (by omega)]
        simp
      exact .inl ⟨b, r', rfl, by rw [hv32, hside]⟩
  | eos r' =>
    rw [hb] at hbyte
    obtain ⟨-, -, hshort, -⟩ := hbyte
    cases hv : readLoop 8 0 r with
    | fault f => rw [hv] at hloop; exact hloop.elim
    | ok v r'' =>
      rw [hv] at hloop
      obtain ⟨-, henough, -, -⟩ := hloop
      omega
    | eos r'' => exact .inr ⟨r', r'', rfl, rfl⟩

/-- Settles O33: both reads take the next eight bits when there are that many, and fail when there are not. -/
theorem byteReadIsEightBitReads : Obligations.ByteReadIsEightBitReads := by
  unfold Obligations.ByteReadIsEightBitReads
  intro r r' b hinv hl
  obtain ⟨c, u, hbyte, hloop⟩ | ⟨u, u', hbyte, hloop⟩ := readByte_eq_readLoop ⟨hinv, hl⟩ <;> rw [hbyte, hloop]
  · rw [ReadOut.ok.injEq, ReadOut.ok.injEq, ← BitVec.toNat_inj, ← BitVec.toNat_inj, BitVec.toNat_setWidth, BitVec.toNat_setWidth]
    have hb : b.toNat < 2 ^ 8 := b.isLt
    have hc : c.toNat < 2 ^ 8 := c.isLt
    rw [Nat.mod_eq_of_lt (by omega), Nat.mod_eq_of_lt (by omega)]
  · exact iff_of_false nofun nofun

/-! ### The reads as commands: splitting, and the remaining bits alone (R113, R120) -/

section
variable {i : Instr} {s t : State} {k : Nat}

theorem readBody_readsOn {body : ReaderSide → ReadOut Data} (hb : readBody i = some body) (r : ReaderSide) :
    (body r).ReadsOn r := by
  cases i <;> cases hb
  case rdbit => exact (readBit_readsOn r).map _
  case rdbyte => exact (readByte_readsOn r).map _
  case rdbits k => exact (readWidth_readsOn k r).map _
  all_goals exact ((readBytes_readsOn _ r).map _).map _

/-- A data read with enough bits to come: its value, what remains, and how the registers moved. -/
theorem exec_read_exact (hr : ReaderReady s.readerSide) (hk : readWidthOf i = some k) (hw : badWidth i = false)
    (henough : k ≤ s.readerSide.rem.length) :
    ∃ r, exec i s = .next ((s.setReader r).answerReader (readAnswer (s.readerSide.rem.take k))) ∧ ReaderReady r ∧
      ReadsOn s.readerSide r ∧ r.rem = s.readerSide.rem.drop k := by
  obtain ⟨body, hb⟩ := Option.isSome_iff_exists.mp ((readBody_isSome i).trans (Option.isSome_of_eq_some hk))
  have hspec := readBody_spec hb hk hw hr
  have hon := readBody_readsOn hb s.readerSide
  rw [exec_read hb hw]
  cases hx : body s.readerSide with
  | fault f => rw [hx] at hspec; exact hspec.elim
  | eos r =>
    rw [hx] at hspec
    obtain ⟨-, hshort, -, -⟩ := hspec
    omega
  | ok v r =>
    rw [hx] at hspec hon
    obtain ⟨hready, -, hval, hrem⟩ := hspec
    have hv : v = BitVec.ofNat 64 (val (s.readerSide.rem.take k)) := by rw [← hval, BitVec.ofNat_toNat, BitVec.setWidth_eq]
    exact ⟨r, by rw [dataRead_ok hr.bound hx, hv]; rfl, hready, hon, hrem⟩

end

/-- Settles O43: the two reads and the one take the same bits, so they leave the same reader. -/
theorem readsSplit : Obligations.ReadsSplit := by
  unfold Obligations.ReadsSplit
  intro s a b hinv hl ha hb hab henough
  have hlegal {k : Nat} (h1 : 1 ≤ k) (h32 : k ≤ 32) : badWidth (.rdbits k) = false := (badWidth_rdbits k).mpr ⟨h1, h32⟩
  obtain ⟨r, hx, hr, hon, hrem⟩ :=
    exec_read_exact (i := .rdbits a) ⟨hinv, hl⟩ rfl (hlegal ha (by omega)) (by omega : a ≤ s.readerSide.rem.length)
  obtain ⟨r', hx', hr', hon', hrem'⟩ :=
    exec_read_exact (i := .rdbits b) (s := s.setReader r) hr rfl (hlegal hb (by omega)) (k := b)
      (by rw [State.setReader_readerSide, hrem, List.length_drop]; omega)
  obtain ⟨u, hxu, hu, honu, hremu⟩ := exec_read_exact (i := .rdbits (a + b)) ⟨hinv, hl⟩ rfl (hlegal (by omega) hab) henough
  rw [State.setReader_readerSide] at hx' hon' hrem'
  obtain rfl : u = r' :=
    honu.determined (hon.trans hon') hu hr' (by rw [hremu, hrem', hrem, List.drop_drop])
  refine ⟨r, u, _, _, hx, hx', ?_⟩
  have hlen : (r.rem.take b).length = b := by rw [hrem, List.length_take, List.length_drop]; omega
  rw [hxu, readAnswer, List.take_add, ← hrem, val_append, hlen]

section
variable {i : Instr} {s s' : State}

theorem port_of_readWidthOf {k : Nat} (hk : readWidthOf i = some k) : i.port = .reader := by
  cases i <;> simp [readWidthOf, Instr.port] at hk ⊢

/-- The same answer to two readers, and the same bits left to them. -/
def AnswersAlike (i : Instr) (s s' : State) : Prop :=
  ∃ q r r', exec i s = .next ((s.setReader r).answerReader q) ∧ exec i s' = .next ((s'.setReader r').answerReader q) ∧
    r.rem = r'.rem

/-- A data read of fixed length, legal or not, answers by the remaining bits. -/
theorem read_answersAlike {k : Nat} (hr : ReaderReady s.readerSide) (hr' : ReaderReady s'.readerSide)
    (hrem : s.readerSide.rem = s'.readerSide.rem) (hk : readWidthOf i = some k) : AnswersAlike i s s' := by
  cases hw : badWidth i
  case true => exact ⟨_, s.readerSide, s'.readerSide, by rw [exec_invalid hw, port_of_readWidthOf hk]; rfl,
    by rw [exec_invalid hw, port_of_readWidthOf hk]; rfl, hrem⟩
  case false =>
    obtain henough | hshort := le_or_gt k s.readerSide.rem.length
    · obtain ⟨r, hx, hleft⟩ := exec_read_of_enough hr hk hw henough
      obtain ⟨r', hx', hleft'⟩ := exec_read_of_enough hr' hk hw (hrem ▸ henough)
      exact ⟨_, r, r', hx, hrem ▸ hx', by rw [hleft, hleft', hrem]⟩
    · obtain ⟨r, hx, hleft⟩ := exec_read_of_short hr hk hw hshort
      obtain ⟨r', hx', hleft'⟩ := exec_read_of_short hr' hk hw (hrem ▸ hshort)
      exact ⟨_, r, r', hx, hx', by rw [hleft, hleft', hrem]⟩

/-- `RDALL` answers by the remaining bits, which determine the bytes it gives. -/
theorem rdall_answersAlike (hr : ReaderReady s.readerSide) (hr' : ReaderReady s'.readerSide)
    (hrem : s.readerSide.rem = s'.readerSide.rem) : AnswersAlike .rdall s s' := by
  by_cases hwhole : s.readerSide.rem.length % 8 = 0
  · obtain ⟨r, bs, hx, hbits, hleft⟩ := exec_rdall_of_whole hr hwhole
    obtain ⟨r', bs', hx', hbits', hleft'⟩ := exec_rdall_of_whole hr' (hrem ▸ hwhole)
    obtain rfl : bs = bs' := streamBits_inj (by rw [hbits, hbits', hrem])
    exact ⟨_, r, r', hx, hx', by rw [hleft, hleft']⟩
  · obtain ⟨r, hx, hleft⟩ := exec_rdall_of_odd hr hwhole
    obtain ⟨r', hx', hleft'⟩ := exec_rdall_of_odd hr' (hrem ▸ hwhole)
    exact ⟨_, r, r', hx, hx', by rw [hleft, hleft', hrem]⟩

end

/-- Settles O30: what a read answers and what it leaves are given by the remaining bits, whether it succeeds or fails. -/
theorem readsDependOnTheRemainingBitsAlone : Obligations.ReadsDependOnTheRemainingBitsAlone := by
  unfold Obligations.ReadsDependOnTheRemainingBitsAlone
  intro i s s' t t' hi hinv hl hinv' hl' hrem hx hx'
  obtain ⟨q, r, r', halike, halike', hleft⟩ : AnswersAlike i s s' := by
    obtain hk | rfl := hi
    · obtain ⟨k, hk⟩ := Option.isSome_iff_exists.mp hk
      exact read_answersAlike ⟨hinv, hl⟩ ⟨hinv', hl'⟩ hrem hk
    · exact rdall_answersAlike ⟨hinv, hl⟩ ⟨hinv', hl'⟩ hrem
  cases hx.symm.trans halike
  cases hx'.symm.trans halike'
  exact ⟨by simp, hleft⟩

end Sys2Proof.Machine

/-! ### Which operand bits a write reads (R55) -/

namespace Sys2Proof.Machine

/-- Two operands agree in the bits that `i` reads (R55, R57). -/
def OperandsAgree (i : Instr) (d d' : Data) : Prop :=
  ∀ k, writeWidthOf i = some k → badWidth i = false → ∀ j < k, d.getLsbD j = d'.getLsbD j

theorem OperandsAgree.symm {i : Instr} {d d' : Data} (h : OperandsAgree i d d') : OperandsAgree i d' d :=
  fun k hk hw j hj => (h k hk hw j hj).symm

theorem writeBits_congr {m : Nat} {v u : BitVec m} {k : Nat} (h : ∀ j < k, v.getLsbD j = u.getLsbD j) :
    writeBits v k = writeBits u k := by
  induction k with
  | zero => rfl
  | succ k ih =>
    funext w
    rw [writeBits, writeBits, h k k.lt_succ_self, ih fun j hj => h j (Nat.lt_succ_of_lt hj)]

theorem byteOf_of_bits {m n : Nat} {v u : BitVec m} (h : ∀ j < n, v.getLsbD j = u.getLsbD j) {j : Nat} (hj : 8 * (j + 1) ≤ n) :
    byteOf v j = byteOf u j := by
  apply BitVec.eq_of_getLsbD_eq
  intro l hl
  rw [byteOf, byteOf, BitVec.getLsbD_extractLsb', BitVec.getLsbD_extractLsb', h (8 * j + l) (by omega)]

theorem writeBytes_of_bits {m n k : Nat} {v u : BitVec m} (h : ∀ j < n, v.getLsbD j = u.getLsbD j) (hk : 8 * k ≤ n) :
    writeBytes v k = writeBytes u k :=
  writeBytes_congr fun _ hj => byteOf_of_bits h (by omega)

/-- A write is a function of the bits it lays down (R55). -/
theorem writeBody_congr {i : Instr} {body : Data → WriterSide → Except Fault WriterSide} {d d' : Data}
    (hb : writeBody i = some body) (hw : badWidth i = false) (h : OperandsAgree i d d') : body d = body d' := by
  cases i <;> cases hb
  case wrbit =>
    have h0 := h 1 rfl hw 0 Nat.one_pos
    simp only [h0]
  case wrbyte =>
    have h0 : byteOf d 0 = byteOf d' 0 := byteOf_of_bits (h 8 rfl hw) le_rfl
    simp only [h0]
  case wrshort => exact writeBytes_of_bits (h 16 rfl hw) le_rfl
  case wrint => exact writeBytes_of_bits (h 32 rfl hw) le_rfl
  case wrlong => exact writeBytes_of_bits (h 64 rfl hw) le_rfl
  case wrbits k =>
    funext w
    show writeWidth k d w = writeWidth k d' w
    rw [writeWidth, writeWidth, writeBits_congr (h k rfl hw)]
    split
    case isTrue h32 => rw [writeBytes_of_bits (h k rfl hw) (by omega)]
    case isFalse => rfl

section
variable {i : Instr} {s s' t : State}

/-- What a writer command can do it can do with any operand that agrees in the bits it reads. -/
theorem WriterDoes.setOperand {w : WriterSide} {q : WriterResponse} {d : Data} (hd : WriterDoes s i w q)
    (h : OperandsAgree i d s.bwWdata) : WriterDoes { s with bwWdata := d } i w q := by
  cases hd with
  | invalid hw => exact .invalid hw
  | wrongState hw hs => exact .wrongState hw hs
  | bind hl => exact .bind hl
  | write hb hw hl hx => exact .write hb hw hl (by rw [← hx, writeBody_congr hb hw h]; rfl)
  | flush hl hx => exact .flush hl hx
  | stat => exact .stat
  | close hl hx => exact .close hl hx
  | reclose hl => exact .reclose hl

/-- A command that answers answers the same with other operand lines of the writer that agree in the bits it reads. -/
theorem exec_setWriterOperand {d : Data} (ha : OperandsAgree i d s.bwWdata) (h : exec i s = .next t) :
    exec i { s with bwWdata := d } = .next { t with bwWdata := d } := by
  cases hp : i.port
  case reader =>
    obtain ⟨r, q, rfl, hd⟩ := reader_next hp h
    exact exec_of_readerDoes hp hd rfl
  case writer =>
    obtain ⟨w, q, rfl, hd⟩ := writer_next hp h
    exact exec_of_writerDoes hp (hd.setOperand ha) rfl rfl

/-- A command that answers answers the same with any other operand lines of the reader. -/
theorem exec_setReaderOperand (e : Data) (h : exec i s = .next t) :
    exec i { s with brWdata := e } = .next { t with brWdata := e } := by
  cases hp : i.port
  case reader =>
    obtain ⟨r, q, rfl, hd⟩ := reader_next hp h
    exact exec_of_readerDoes hp hd rfl
  case writer =>
    obtain ⟨w, q, rfl, hd⟩ := writer_next hp h
    exact exec_of_writerDoes hp hd rfl rfl

/-- A command can stop on one fault alone, that of its unit's environment, so two states agree in the outcome up to `g` as soon as
they agree in the answers. -/
theorem exec_eq_mapNext (g : State → State) (hto : ∀ t, exec i s = .next t → exec i s' = .next (g t))
    (hback : ∀ t, exec i s' = .next t → ∃ u, exec i s = .next u) : exec i s' = mapNext g (exec i s) := by
  obtain ⟨f, c, c', hs, hs'⟩ : ∃ f c c', StopsOnlyOn f c (exec i s) ∧ StopsOnlyOn f c' (exec i s') := by
    cases hp : i.port
    case reader => exact ⟨_, _, _, exec_reader_stops hp s, exec_reader_stops hp s'⟩
    case writer => exact ⟨_, _, _, exec_writer_stops hp s, exec_writer_stops hp s'⟩
  cases hx : exec i s with
  | next t => exact hto t hx
  | refused q => rw [hx] at hs; exact hs.elim
  | fault a =>
    rw [hx] at hs
    cases hx' : exec i s' with
    | next t =>
      obtain ⟨u, hu⟩ := hback t hx'
      cases hx.symm.trans hu
    | refused q => rw [hx'] at hs'; exact hs'.elim
    | fault b =>
      rw [hx'] at hs'
      obtain ⟨rfl, -⟩ := hs
      obtain ⟨rfl, -⟩ := hs'
      rfl

end

/-- Settles O41: an answer does not depend on the operand bits that are not read, and a stop has one cause for each unit. -/
theorem unusedOperandBitsAreIgnored : Obligations.UnusedOperandBitsAreIgnored := by
  unfold Obligations.UnusedOperandBitsAreIgnored
  intro i s d ha
  have hagree : OperandsAgree i d s.bwWdata := ha
  refine ⟨exec_eq_mapNext _ (fun t => exec_setWriterOperand hagree) fun t h => ?_,
    fun e => exec_eq_mapNext _ (fun t => exec_setReaderOperand e) fun t h => ?_⟩
  · exact ⟨_, exec_setWriterOperand (s := { s with bwWdata := d }) (d := s.bwWdata) hagree.symm h⟩
  · exact ⟨_, exec_setReaderOperand (s := { s with brWdata := e }) s.brWdata h⟩

/-! ### Writes that lay down the same bits leave the same writer (R110, R117, R120) -/

/-- A ready writer is determined by the bits laid down. -/
theorem WriterReady.determined {w w' : WriterSide} (h : WriterReady w) (h' : WriterReady w') (heq : w.written = w'.written) :
    w = w' := by
  obtain ⟨hinv, hl, ho⟩ := h
  obtain ⟨hinv', hl', ho'⟩ := h'
  obtain ⟨hbuf, hn, hbytes⟩ := written_inj hinv hinv' heq
  obtain ⟨⟨_, _, _⟩, ⟨_, _⟩⟩ := w
  obtain ⟨⟨_, _, _⟩, ⟨_, _⟩⟩ := w'
  simp_all

/-- Settles O44: the two writes and the one lay down the same bits, so they leave the same writer. -/
theorem writesSplit : Obligations.WritesSplit := by
  unfold Obligations.WritesSplit
  intro s d a b hinv hl hopen ha hb hab
  have hlegal {k : Nat} (h1 : 1 ≤ k) (h32 : k ≤ 32) : badWidth (.wrbits k) = false := (badWidth_wrbits k).mpr ⟨h1, h32⟩
  have hw : WriterReady s.writerSide := ⟨hinv, hl, hopen⟩
  obtain ⟨w, hx, hready, hbits⟩ :=
    exec_write_ready (i := .wrbits a) (s := { s with bwWdata := d >>> b }) hw rfl (hlegal ha (by omega))
  obtain ⟨w', hx', hready', hbits'⟩ :=
    exec_write_ready (i := .wrbits b) (s := ({ s with bwWdata := d } : State).setWriter w) hready rfl (hlegal hb (by omega))
  obtain ⟨u, hxu, hreadyu, hbitsu⟩ :=
    exec_write_ready (i := .wrbits (a + b)) (s := { s with bwWdata := d }) hw rfl (hlegal (by omega) hab)
  rw [State.setWriter_writerSide, hbits] at hbits'
  obtain rfl : u = w' := hreadyu.determined hready' (by
    rw [hbitsu, hbits', bitsLow_add, ← List.append_assoc]
    rfl)
  exact ⟨w, u, hx, hx', hxu⟩

/-! ### The codeword stream (R110) -/

/-- A codeword as a field of the stream (R61). -/
def codeword (c : BitVec 12) : Field := .bits 12 (c.setWidth 64)

theorem codeword_bits (c : BitVec 12) : (codeword c).bitsOf = bitsLow c 12 :=
  bitsLow_congr _ _ _ fun j hj => by
    have h64 : j < 64 := lt_trans hj (show 12 < 64 by decide)
    simp [codeword, Field.operand, h64]

theorem codewords_bits (cs : List (BitVec 12)) : (cs.map codeword).flatMap Field.bitsOf = cs.flatMap fun c => bitsLow c 12 := by
  simp [List.flatMap_map, codeword_bits]

theorem codewords_width (cs : List (BitVec 12)) : ((cs.map codeword).map Field.width).sum = 12 * cs.length := by
  induction cs with
  | nil => rfl
  | cons c cs ih =>
    rw [List.map_cons, List.map_cons, List.sum_cons, ih, List.length_cons]
    show 12 + _ = _
    omega

/-- An odd number of codewords ends in the middle of a byte (R110). -/
theorem padOf_codewords (k : Nat) : padOf (12 * k) = List.replicate (if k % 2 = 0 then 0 else 4) false := by
  rw [padOf]
  congr 1
  split <;> omega

/-- Settles O47: the codewords are a stream of fields of width 12, and the length is that of its bits and the pad. -/
theorem codewordStreamIsDenselyPacked : Obligations.CodewordStreamIsDenselyPacked := by
  unfold Obligations.CodewordStreamIsDenselyPacked
  intro s cs hl hsink
  have hlegal : ∀ f ∈ cs.map codeword, f.legal = true := by
    intro f hf
    obtain ⟨c, -, rfl⟩ := List.mem_map.mp hf
    rfl
  obtain ⟨t, hrun, hbits, hclosed, -, -⟩ := runsTo_writeInputs hlegal hl hsink
  rw [RunsTo, writeInputs_length, List.length_map] at hrun
  rw [codewords_bits, codewords_width, padOf_codewords] at hbits
  refine ⟨t, hrun, hbits, ?_, hclosed⟩
  have hlen := congrArg List.length hbits
  rw [streamBits_length, List.length_append, List.length_replicate, ← codewords_bits, flatMap_bitsOf_length, codewords_width]
    at hlen
  split at hlen <;> omega

/-! ### The flush on the registers (R97) -/

/-- The pending bits moved to the high-order positions lose none of them (R40). -/
theorem padded_toNat {n : Nat} (h : n ≤ 8) {buf : Byte} (hbuf : buf.toNat < 2 ^ n) :
    (padded n buf).toNat = buf.toNat * 2 ^ (8 - n) := by
  have hlt : buf.toNat * 2 ^ (8 - n) < 2 ^ 8 := by
    calc buf.toNat * 2 ^ (8 - n) < 2 ^ n * 2 ^ (8 - n) := Nat.mul_lt_mul_of_pos_right hbuf (Nat.two_pow_pos _)
      _ = 2 ^ 8 := by rw [← pow_add, Nat.add_sub_cancel' h]
  rw [padded, BitVec.toNat_shiftLeft, Nat.shiftLeft_eq, Nat.mod_eq_of_lt hlt]

theorem exec_flush_empty {s : State} (hl : s.bw.life = .bound) (hn : s.bw.n = 0) :
    exec .flush s = .next (s.answerWriter writeAnswer) :=
  dataWrite_ok hl (w := s.writerSide) (if_pos hn)

/-- Settles O38: with bits pending the flush sends them padded, after which none is. -/
theorem flushPadsWithZerosBelow : Obligations.FlushPadsWithZerosBelow := by
  unfold Obligations.FlushPadsWithZerosBelow
  refine fun s hl => ⟨exec_flush_empty hl, fun hopen hinv hn => ?_⟩
  obtain ⟨hcount, hbuf, -, -⟩ := hinv
  have hflush : flushBody s.writerSide = emit (padded s.bw.n.toNat s.bw.buf) s.writerSide := if_neg hn
  have hx : exec .flush s = _ := dataWrite_ok hl (hflush.trans (emit_open hopen _))
  exact ⟨padded s.bw.n.toNat s.bw.buf, _, hx, rfl, padded_toNat (Nat.le_succ_of_le hcount) hbuf, exec_flush_empty hl rfl⟩

end Sys2Proof.Machine

/-! ### One step, one input (R50, R141, R152) -/

namespace Sys2Proof.Machine

/-- Settles O5: the word is that unit's command, so the channel runs it with the operand on the lines. -/
theorem stepRunsTheDecodedCommand : Obligations.StepRunsTheDecodedCommand := by
  unfold Obligations.StepRunsTheDecodedCommand
  exact fun s w d rest i hi =>
    ⟨fun hp hin => (step_cons hin).trans (runCommand_some (commandOn_some.mpr ⟨hi, hp⟩) d _),
      fun hp hin => (step_cons hin).trans (runCommand_some (commandOn_some.mpr ⟨hi, hp⟩) d _)⟩

/-- Settles O8: `step_nil`, the step that takes no input. -/
theorem stepHoldsWhenNothingWaits : Obligations.StepHoldsWhenNothingWaits := by
  unfold Obligations.StepHoldsWhenNothingWaits
  exact fun s => step_nil

/-- Settles O9: the step handles the input, whose meaning tests the lifecycle. -/
theorem presentingTheEnvironment : Obligations.PresentingTheEnvironment := by
  unfold Obligations.PresentingTheEnvironment
  exact fun s bs rest =>
    ⟨fun hin => ⟨fun hl => (step_cons hin).trans (if_pos hl), fun hl => (step_cons hin).trans (if_neg hl)⟩,
      fun hin => ⟨fun hl => (step_cons hin).trans (if_pos hl), fun hl => (step_cons hin).trans (if_neg hl)⟩⟩

/-! ### The reader commands on the registers (R71, R72, R81) -/

/-- `Fill()` on a source at its end sets `eof` (R70). -/
theorem fill_exhausted {r : ReaderSide} (he : r.br.eof = false) (hr : r.src.released = false)
    (hb : r.src.bytes[r.src.pos]? = none) : fill r = .ok false { r with br := { r.br with eof := true } } := by
  simp [fill, he, hr, Source.next, hb]

/-- `Fill()` with `eof` set does nothing (R70). -/
theorem fill_ended {r : ReaderSide} (he : r.br.eof = true) : fill r = .ok false r := if_pos he

/-- `RBIND` from `UNBOUND` ends as its refill does (R71). -/
theorem exec_rbind_ok {s : State} {b : Bool} {r : ReaderSide} (hl : s.br.life = .unbound)
    (h : bindReader s.readerSide = .ok b r) : exec .rbind s = .next ((s.setReader r).answerReader (readAnswer [])) := by
  have hx : exec .rbind s = finishReader (fun _ => 0) (fun _ => []) s (bindReader s.readerSide) := if_pos hl
  rw [hx, h]
  rfl

/-- Settles O25: the bind is the refill of an emptied reader, which loads a byte or finds none. -/
theorem bindFetchesTheFirstByte : Obligations.BindFetchesTheFirstByte := by
  unfold Obligations.BindFetchesTheFirstByte
  exact fun s hl hrel =>
    ⟨fun b hb => exec_rbind_ok hl (fill_loads rfl hrel hb), fun hb => exec_rbind_ok hl (fill_exhausted rfl hrel hb)⟩

section
variable {r : ReaderSide} {m : Nat}

/-- `RDBIT()` with more than one bit resident: the count falls by one (R72). -/
theorem readBit_resident (hn : r.br.n.toNat = m + 1) (hm : 0 < m) :
    readBit r = .ok (r.br.buf.getLsbD m) (r.setN (BitVec.ofNat 4 m)) := by
  have hpred : r.br.n - 1 = BitVec.ofNat 4 m := by bv_omega
  have hcount : (BitVec.ofNat 4 m).toNat = m := by bv_omega
  have hne : r.br.n ≠ 0 := by bv_omega
  have hne' : BitVec.ofNat 4 m ≠ 0 := by bv_omega
  simp only [readBit, hpred, hcount, hne, hne', if_false]

/-- `RDBIT()` with one bit resident: the refill follows in the same command (R72). -/
theorem readBit_last {loaded : Bool} {r' : ReaderSide} (hn : r.br.n.toNat = 1) (hf : fill (r.setN 0) = .ok loaded r') :
    readBit r = .ok (r.br.buf.getLsbD 0) r' := by
  have hone : r.br.n = 1 := BitVec.eq_of_toNat_eq hn
  have hne : (1 : Count) ≠ 0 := by decide
  have hpred : (1 : Count) - 1 = 0 := by decide
  simp only [readBit, hone, hne, hpred, hf, if_true, if_false]
  rfl

end

/-- A bit on the result bus (R54). -/
theorem onBus_ofBool (b : Bool) : onBus (BitVec.ofBool b) = BitVec.ofNat 64 b.toNat := by
  cases b <;> rfl

/-- `RDBIT` from `BOUND` answers the bit that its body takes. -/
theorem exec_rdbit_ok {s : State} {b : Bool} {r : ReaderSide} (hl : s.br.life = .bound) (h : readBit s.readerSide = .ok b r) :
    exec .rdbit s = .next ((s.setReader r).answerReader
      { status := .ok, rdata := BitVec.ofNat 64 b.toNat, rbytes := [] }) :=
  onBus_ofBool b ▸ dataRead_ok hl h

/-- Settles O26: no bit, more than one, or the last one with each end of the refill. -/
theorem bitReadOnTheRegisters : Obligations.BitReadOnTheRegisters := by
  unfold Obligations.BitReadOnTheRegisters
  rintro s hl
  refine ⟨fun hn => dataRead_eos hl (r := s.readerSide) (if_pos hn), ?_⟩
  rintro m hn d rfl
  refine ⟨fun hm => exec_rdbit_ok hl (readBit_resident hn hm), ?_, ?_, ?_⟩
  · rintro rfl he hrel b hb
    exact exec_rdbit_ok hl (readBit_last hn (fill_loads (r := s.readerSide.setN 0) he hrel hb))
  · rintro rfl he hrel hb
    exact exec_rdbit_ok hl (readBit_last hn (fill_exhausted (r := s.readerSide.setN 0) he hrel hb))
  · rintro rfl he
    exact exec_rdbit_ok hl (readBit_last hn (fill_ended (r := s.readerSide.setN 0) he))

/-- Settles O35: the branch of each close that the lifecycle state selects. -/
theorem readerCloseReleasesAndRecloseIsNothing : Obligations.ReaderCloseReleasesAndRecloseIsNothing := by
  unfold Obligations.ReaderCloseReleasesAndRecloseIsNothing
  refine fun s => ⟨fun hl => ?_, fun hl => ?_, fun hl => ?_⟩
  · rw [exec, execRclose, hl]
    rfl
  · rw [exec, execRclose, hl]
    rfl
  · rw [exec, execWclose, hl]
    rfl

/-! ### The status registers (R21, R22) -/

/-- The fields of `RSTAT` on the bus; they take 128 values together (R21). -/
theorem rstat_fields (b : ReaderRegs) :
    (onBus b.rstat).extractLsb' 0 4 = b.n ∧ (onBus b.rstat).getLsbD 4 = b.eof ∧
    (onBus b.rstat).getLsbD 5 = decide (b.n = 0) ∧ (onBus b.rstat).toNat / 64 = b.life.code.toNat := by
  unfold ReaderRegs.rstat ReaderRegs.empty
  generalize b.life.code = l
  generalize b.eof = f
  generalize b.n = n
  revert l f n
  decide

/-- The fields of `WSTAT` on the bus; they take 64 values together (R22). -/
theorem wstat_fields (b : WriterRegs) :
    (onBus b.wstat).extractLsb' 0 4 = b.n ∧ (onBus b.wstat).extractLsb' 4 2 = 0 ∧
    (onBus b.wstat).toNat / 64 = b.life.code.toNat := by
  unfold WriterRegs.wstat
  generalize b.life.code = l
  generalize b.n = n
  revert l n
  decide

/-- Settles O34: both commands answer the register on the bus and change nothing else. -/
theorem statusRegistersAreViews : Obligations.StatusRegistersAreViews := by
  unfold Obligations.StatusRegistersAreViews
  intro s
  obtain ⟨hn, heof, hempty, hlife⟩ := rstat_fields s.br
  obtain ⟨hn', hzero, hlife'⟩ := wstat_fields s.bw
  refine ⟨⟨onBus s.br.rstat, rfl, hn, heof, hempty, hlife.trans ?_⟩, ⟨onBus s.bw.wstat, rfl, hn', hzero, hlife'.trans ?_⟩⟩
  · cases s.br.life <;> rfl
  · cases s.bw.life <;> rfl

/-! ### The writer commands on the registers (R90, R91) -/

/-- Settles O36: the branch of the bind that `UNBOUND` selects. -/
theorem bindEmptiesTheWriter : Obligations.BindEmptiesTheWriter := by
  unfold Obligations.BindEmptiesTheWriter
  exact fun s => exec_wbind_unbound

/-- A bit shifted into an accumulator of at most seven bits (R91). -/
theorem appendBit_byte {buf : Byte} (h : buf.toNat < 128) (b : Bool) : (appendBit buf b).toNat = 2 * buf.toNat + b.toNat :=
  appendBit_toNat buf b (by have := b.toNat_lt; omega)

section
variable {w : WriterSide} {b : Bool}

theorem writeBit_keeps (h : w.bw.n + 1 ≠ 8) :
    writeBit b w = .ok { w with bw := { w.bw with buf := appendBit w.bw.buf b, n := w.bw.n + 1 } } := if_neg h

theorem writeBit_sends (h : w.bw.n = 7) : writeBit b w = emit (appendBit w.bw.buf b) w :=
  if_pos (by rw [h]; rfl)

end

/-- Settles O37: the accumulator with the bit shifted in is kept, or sent once it is full. -/
theorem bitWriteOnTheRegisters : Obligations.BitWriteOnTheRegisters := by
  unfold Obligations.BitWriteOnTheRegisters
  refine fun s hl => ⟨fun hn hbuf => ?_, fun hn hbuf hopen => ?_⟩
  · have hkeep : s.writerSide.bw.n + 1 ≠ 8 := by rw [State.writerSide_bw]; bv_omega
    exact ⟨_, dataWrite_ok hl (writeBit_keeps hkeep), appendBit_byte hbuf _⟩
  · exact ⟨_, dataWrite_ok hl ((writeBit_sends hn).trans (emit_open hopen _)), appendBit_byte hbuf _⟩

/-- `Fill()` on a released source (R32). -/
theorem fill_released {r : ReaderSide} (he : r.br.eof = false) (hr : r.src.released = true) : fill r = .fault .sourceReleased := by
  simp [fill, he, hr]

theorem exec_rbind_fault {s : State} {f : Fault} (hl : s.br.life = .unbound) (h : bindReader s.readerSide = .fault f) :
    exec .rbind s = .fault f := by
  have hx : exec .rbind s = finishReader (fun _ => 0) (fun _ => []) s (bindReader s.readerSide) := if_pos hl
  rw [hx, h]
  rfl

theorem dataWrite_error {body : WriterSide → Except Fault WriterSide} {s : State} {f : Fault} (hl : s.bw.life = .bound)
    (h : body s.writerSide = .error f) : dataWrite body s = .fault f := by
  simp [dataWrite, hl, h, finishWriter]

/-- Settles O18: the bind asks a released source; the eighth bit and the flush of pending bits put a byte to a closed sink. -/
theorem brokenPreconditionStopsTheAccess : Obligations.BrokenPreconditionStopsTheAccess := by
  unfold Obligations.BrokenPreconditionStopsTheAccess
  refine fun s => ⟨fun hl hrel => exec_rbind_fault hl (fill_released rfl hrel), fun hl hclosed hn => ?_, fun hl hclosed hn => ?_⟩
  · exact dataWrite_error hl ((writeBit_sends hn).trans (emit_closed hclosed _))
  · exact dataWrite_error hl ((if_neg hn).trans (emit_closed hclosed _))

end Sys2Proof.Machine
